-- ==== Sys2Proof/Word.lean ====
section
/-! DEFINITION. The word types of the block: the F24 input word and its three fields (00_scope.md R5,
30_encoding.md R29), and the widths of the six output ports (10_state.md R12). A word is unsigned unless a
rule says otherwise, and bit 0 is the least significant bit (R6). -/

namespace Sys2Proof

/-- The 24-bit packed float on `in_value` (R11, R29). -/
abbrev F24 := BitVec 24

/-- The sign field `s`, and the port `sign_o` (R12, R29). -/
abbrev SignBit := BitVec 1

/-- The biased exponent field `e`, and the ports `exp_field_o` and `exp_unbiased_o` (R12, R29). -/
abbrev ExpField := BitVec 6

/-- The mantissa field `m`, and the port `mant_field_o` (R12, R29). -/
abbrev MantField := BitVec 17

/-- The significand with its leading 1, the port `significand_o` (R12, R35). -/
abbrev Significand := BitVec 18

/-- A binary64 word, the port `out_f64` (R12, R39). -/
abbrev B64 := BitVec 64

end Sys2Proof
end

