-- ==== Sys2Proof/Syntax.lean ====
section
/-! DEFINITION. The instructions (spec/opcode_table.json: the one row `DECODE`) and the written forms of one
input presentation (30_encoding.md R46). -/

namespace Sys2Proof

/-- One constructor per row of spec/opcode_table.json. The block has one operation and no opcode field (R44). -/
inductive Instr where
  /-- `DECODE` (R47), with the fields `s`, `e`, `m` of its operand word (R29, R44). -/
  | decode (s : SignBit) (e : ExpField) (m : MantField)
deriving DecidableEq, Repr

/-- The three forms in which R46 writes the presentation of one input word. They are a tool's input, not words
of the block, so a field here can be any integer and `Stimulus.wf` says which are accepted. -/
inductive Stimulus where
  /-- `DECODE 0xHHHHHH`: the hexadecimal digits, the most significant first. -/
  | hex (digits : List (Fin 16))
  /-- `DECODE.F s, e, m`. -/
  | fields (s e m : Int)
  /-- `DECODE.U s, u, m`. -/
  | unbiased (s u m : Int)
deriving DecidableEq, Repr

end Sys2Proof
end

