-- ==== Sys2Proof/WellFormed.lean ====
section
/-! DEFINITION. Which instructions and which written forms are well formed. -/

namespace Sys2Proof

/-- Every instruction is well formed: the widths of `s`, `e` and `m` are in their types, and no word is
reserved, illegal or a hint (R30). -/
def Instr.wf : Instr → Bool
  | .decode _ _ _ => true

/-- The ranges of R46: one to six hexadecimal digits; `s` 0 or 1, `e` 0 to 63, `u` -32 to 31, `m` 0 to
0x1FFFF. (That a constant has at least one digit is DEDUCED, log entry 8.) -/
def Stimulus.wf : Stimulus → Bool
  | .hex digits => decide (1 ≤ digits.length ∧ digits.length ≤ 6)
  | .fields s e m => decide ((0 ≤ s ∧ s ≤ 1) ∧ (0 ≤ e ∧ e ≤ 63) ∧ (0 ≤ m ∧ m ≤ 0x1FFFF))
  | .unbiased s u m => decide ((0 ≤ s ∧ s ≤ 1) ∧ (-32 ≤ u ∧ u ≤ 31) ∧ (0 ≤ m ∧ m ≤ 0x1FFFF))

end Sys2Proof
end

