-- ==== Sys2Proof/Decode.lean ====
section
/-! DEFINITION. Field extraction (30_encoding.md R31 to R33), the decoder (R44), the encoder, and the expansion
of the written forms (R46). -/

namespace Sys2Proof

/-! ### Fields of an F24 word (R29) -/

/-- `s = in_value[23]` (R31). -/
def signBit (v : F24) : SignBit := v.extractLsb' 23 1

/-- `e = in_value[22:17]` (R32). -/
def expField (v : F24) : ExpField := v.extractLsb' 17 6

/-- `m = in_value[16:0]` (R33). -/
def mantField (v : F24) : MantField := v.extractLsb' 0 17

/-! ### Decoding -/

/-- Every 24-bit word selects `DECODE` with that word as its operand (R44: mask 0x000000, match 0x000000). -/
def decodeWord (v : F24) : Instr := .decode (signBit v) (expField v) (mantField v)

/-- Why a value is no input of the block. -/
inductive DecodeError where
  /-- The value does not fit the 24-bit port; it is refused and never given a meaning (R30, U1, U2). -/
  | widerThan24Bits
deriving DecidableEq, Repr

/-- Decoding of an integer of any size: total, and refusing by name what the port cannot carry (R30, R45). -/
def decode (n : Nat) : Except DecodeError Instr :=
  if n < 2 ^ 24 then .ok (decodeWord (BitVec.ofNat 24 n)) else .error .widerThan24Bits

/-! ### Encoding -/

/-- The word of an instruction: the fields of R29 laid out `s :: e :: m`. -/
def encode : Instr → F24
  | .decode s e m => s ++ e ++ m

/-- The decoder's answer on an instruction whose bits are numbered as spec/opcode_table.json numbers them: bit 0
is the least significant bit (R6), the port is parallel and has no byte order (R22), and bits from `nbits` up
are 0 (log entry 6). -/
def decodeTableWord (nbits w : Nat) : Option Instr :=
  match decode (w % 2 ^ nbits) with
  | .ok i => some i
  | .error _ => none

/-! ### The written forms (R46) -/

/-- Why a written form is not valid. R46: "A tool refuses it and does not mask it." -/
inductive StimulusError where
  /-- A hexadecimal constant with no digit or with more than six. -/
  | digitCount
  /-- `s` is not 0 or 1. -/
  | signOutOfRange
  /-- `e` is not in 0 to 63, or `u` is not in -32 to 31. -/
  | exponentOutOfRange
  /-- `m` is not in 0 to 0x1FFFF. -/
  | mantissaOutOfRange
deriving DecidableEq, Repr

/-- The value of a hexadecimal constant, the most significant digit first. -/
def hexValue (digits : List (Fin 16)) : Nat := digits.foldl (fun acc d => 16 * acc + d.val) 0

/-- `DECODE.F s, e, m` presents `s :: e[5:0] :: m[16:0]`; a field out of its range is refused (R46). -/
def expandFields (s e m : Int) : Except StimulusError F24 :=
  if s < 0 ∨ 1 < s then .error .signOutOfRange
  else if e < 0 ∨ 63 < e then .error .exponentOutOfRange
  else if m < 0 ∨ 0x1FFFF < m then .error .mantissaOutOfRange
  else .ok (encode (.decode (BitVec.ofInt 1 s) (BitVec.ofInt 6 e) (BitVec.ofInt 17 m)))

/-- The word a written form presents, or why it is refused (R46). `DECODE.U s, u, m` is
`DECODE.F s, u + 32, m`. -/
def Stimulus.expand : Stimulus → Except StimulusError F24
  | .hex digits =>
    if digits.length < 1 ∨ 6 < digits.length then .error .digitCount
    else .ok (BitVec.ofNat 24 (hexValue digits))
  | .fields s e m => expandFields s e m
  | .unbiased s u m => expandFields s (u + 32) m

end Sys2Proof
end

