-- ==== Sys2Proof/Config.lean ====
section
/-! DEFINITION. The fixed parameters of the block (00_scope.md R5) and the free values its output ports carry
while an input bit is undefined (70_reset_and_hazards.md R78, 93_implementation_defined.md U5). -/

namespace Sys2Proof.Config

/-- `B64_BIAS` less `EXP_BIAS`: 1023 - 32 = 991 = 0x3DF (R5, row `REBIAS`), as the 11-bit constant of R42. -/
def rebias : BitVec 11 := 0x3DF#11

/-! The free values. One uninterpreted function per output port: nothing says what any of them is at any
argument. `State.draws` supplies the argument, a fresh one for each observation (U5: "drawn afresh for each
observation"). DESIGN CHOICE, log entry 1. -/

/-- What `out_f64` carries at the n-th observation of an undefined input (R78). -/
opaque freeOutF64 : Nat → B64
/-- What `sign_o` carries at the n-th observation of an undefined input (R78). -/
opaque freeSign : Nat → SignBit
/-- What `exp_field_o` carries at the n-th observation of an undefined input (R78). -/
opaque freeExpField : Nat → ExpField
/-- What `exp_unbiased_o` carries at the n-th observation of an undefined input (R78). -/
opaque freeExpUnbiased : Nat → ExpField
/-- What `mant_field_o` carries at the n-th observation of an undefined input (R78). -/
opaque freeMantField : Nat → MantField
/-- What `significand_o` carries at the n-th observation of an undefined input (R78). -/
opaque freeSignificand : Nat → Significand

end Sys2Proof.Config
end

