-- ==== Sys2Proof/Machine/State.lean ====
section
/-! DEFINITION. The state: what stands on the block's ports, the driver's remaining presentations, and the
counter that supplies the free values. The block itself holds no state (10_state.md R13 to R19). -/

namespace Sys2Proof.Machine

/-- One bit of the input port as the driver leaves it. R78 tells a bit that is driven to a defined 0 or 1 from
one that is not (X or Z, decision D9). -/
inductive Pin where
  /-- Driven to 0. -/
  | low
  /-- Driven to 1. -/
  | high
  /-- Not driven to a defined 0 or 1. -/
  | undefined
deriving DecidableEq, Repr

/-- The input port `in_value[23:0]`; `pins[i]` is bit `i` (R11, R22). -/
structure InPort where
  /-- The 24 bits, bit 0 first. -/
  pins : Vector Pin 24
deriving DecidableEq, Repr

/-- An input port none of whose bits is driven, as at power-up (R78). -/
def InPort.undriven : InPort := { pins := Vector.replicate 24 .undefined }

/-- The six output ports, the record of R20 (widths in R12). -/
structure DecoderOutputs where
  /-- `out_f64[63:0]`: the decoded value as a binary64 word. -/
  outF64 : B64
  /-- `sign_o`: the sign bit `s`. -/
  signO : SignBit
  /-- `exp_field_o`: the biased exponent field `e`. -/
  expFieldO : ExpField
  /-- `exp_unbiased_o`: the unbiased exponent `u`, two's complement. -/
  expUnbiasedO : ExpField
  /-- `mant_field_o`: the mantissa field `m`. -/
  mantFieldO : MantField
  /-- `significand_o`: the significand `1 :: m`. -/
  significandO : Significand
deriving DecidableEq, Repr

/-- The output words of the n-th observation of an undefined input: each word any value (R78, U5). -/
def freeOutputs (n : Nat) : DecoderOutputs where
  outF64 := Config.freeOutF64 n
  signO := Config.freeSign n
  expFieldO := Config.freeExpField n
  expUnbiasedO := Config.freeExpUnbiased n
  mantFieldO := Config.freeMantField n
  significandO := Config.freeSignificand n

/-- Everything the spec gives the machine and its driver. There is no register, program counter, flag, control
register, memory or hidden state (R14 to R19, R21). -/
structure State where
  /-- What the driver holds on `in_value` (R11). -/
  inValue : InPort
  /-- What the six output ports carry, settled (R12, R81). -/
  outputs : DecoderOutputs
  /-- The presentations the driver has not made yet, the next one first (R15, R84): the program. A presentation
  may leave bits undefined (R78). Outside the block. -/
  pending : List InPort
  /-- How many observations of an undefined input there have been: the argument of the free values. The model's
  own field, no state of the block (log entries 1 and 2). -/
  draws : Nat
deriving DecidableEq, Repr

/-- Why a step stops with a fault. No constructor: the block raises no exception for any input (R67), nothing
traps (R71), and no input gets stuck (R20). -/
inductive Fault
deriving DecidableEq, Repr

/-- Why an instruction has no meaning. -/
inductive Refusal where
  /-- Raised only by an arm of `exec` that gives its instruction no meaning yet; no arm does. Safe. -/
  | notModelled (mnemonic : String)
deriving DecidableEq, Repr

/-- Power-up. No input bit is defined and every output is unspecified (R78; 95_test_vectors.md section 3: "no
defined input; every output unspecified"), and nothing is placed for presentation. There is no state to reset
(R79). The outputs are the free values of draw 0 and the counter stands at 1: DESIGN CHOICE, log entry 2. -/
def State.reset : State where
  inValue := InPort.undriven
  outputs := freeOutputs 0
  pending := []
  draws := 1

end Sys2Proof.Machine
end

