-- ==== Sys2Proof/Machine/Operands.lean ====
section
/-! DEFINITION. The one operand form: the whole 24-bit word on the input port (R24, R44, R45), read from its pins,
and how a driver puts a word or an integer there (R11, R22, R30, R80). -/

namespace Sys2Proof.Machine

/-- A driven bit. -/
def Pin.ofBool : Bool → Pin
  | true => .high
  | false => .low

/-- The bit a pin carries, if it is driven to a defined 0 or 1 (R78). -/
def Pin.bit? : Pin → Option Bool
  | .low => some false
  | .high => some true
  | .undefined => none

/-- The integer value of a list of bits, bit 0 first: the sum of `b[i] * 2^i` (R6); none if some bit is not
defined. -/
def pinsValue? : List Pin → Option Nat
  | [] => some 0
  | q :: qs =>
    match q.bit?, pinsValue? qs with
    | some b, some n => some (b.toNat + 2 * n)
    | _, _ => none

/-- Every bit is driven to a defined 0 or 1 (R77, R78). -/
def InPort.isDefined (p : InPort) : Bool := p.pins.toList.all fun q => q.bit?.isSome

/-- The word on the port, where it holds a defined one (R77). -/
def InPort.word? (p : InPort) : Option F24 := (pinsValue? p.pins.toList).map (BitVec.ofNat 24)

/-- Bit `i` of the port is bit `i` of the word (R22). -/
def InPort.ofWord (v : F24) : InPort :=
  { pins := Vector.ofFn fun i => Pin.ofBool (v.getLsbD i) }

/-- A driver that holds an integer presents its low 24 bits (R30, R80, decision D2). -/
def InPort.ofInteger (n : Nat) : InPort := InPort.ofWord (BitVec.ofNat 24 n)

end Sys2Proof.Machine
end

