-- ==== Sys2Proof/Machine/Ops.lean ====
section
/-! DEFINITION. The operations the meaning and the step are built from: the block's arithmetic (R34, R35, R42,
R49), writing the output ports, making the next presentation, and observing an undefined input.

There is no exception to take and no return from one: the block raises none (R67), has no interrupt (R69), enters
no trap and returns from none (R71, R72). -/

namespace Sys2Proof.Machine

/-! ### Arithmetic -/

/-- The 6-bit unbias `u = e - 32`: bit 5 flipped (R34). -/
def unbias (e : ExpField) : ExpField := ~~~(e.extractLsb' 5 1) ++ e.extractLsb' 0 5

/-- The significand `1 :: m` (R35). -/
def significand (m : MantField) : Significand := 1#1 ++ m

/-- The 11-bit rebias `E = zext_11(e) + 11'h3DF` (R42). -/
def rebiasExp (e : ExpField) : BitVec 11 := e.zeroExtend 11 + Config.rebias

/-- `out_f64 = s :: (zext_11(e) + 11'h3DF) :: m :: 35'b0` (R42). -/
def packF64 (s : SignBit) (e : ExpField) (m : MantField) : B64 := s ++ rebiasExp e ++ m ++ 0#35

/-- The six output words for the fields of one input word (R47). -/
def portsOf (s : SignBit) (e : ExpField) (m : MantField) : DecoderOutputs where
  outF64 := packF64 s e m
  signO := s
  expFieldO := e
  expUnbiasedO := unbias e
  mantFieldO := m
  significandO := significand m

/-! ### State -/

/-- The output ports carry `o`. -/
def State.setOutputs (s : State) (o : DecoderOutputs) : State := { s with outputs := o }

/-- The driver makes its next presentation; with none left, `in_value` holds what it held (R24, R84, log
entry 3). -/
def State.advance (s : State) : State :=
  match s.pending with
  | [] => s
  | p :: ps => { s with inValue := p, pending := ps }

/-- An observation while some bit of `in_value` is undefined: each output word is any value, drawn afresh (R78,
U5). -/
def State.observeUndefined (s : State) : State :=
  { s with outputs := freeOutputs s.draws, draws := s.draws + 1 }

/-! ### The driver -/

/-- The driver is about to present `v`, before what it already has to present. -/
def State.presenting (s : State) (v : F24) : State :=
  { s with pending := InPort.ofWord v :: s.pending }

/-- The driver is about to present the integer `n`, of which the port takes the low 24 bits (R80). -/
def State.presentingInteger (s : State) (n : Nat) : State :=
  { s with pending := InPort.ofInteger n :: s.pending }

/-- The driver has exactly the run `vs` to present (R84). -/
def State.withRun (s : State) (vs : List F24) : State := { s with pending := vs.map InPort.ofWord }

end Sys2Proof.Machine
end

