-- ==== Sys2Proof/Machine/Decoder.lean ====
section
/-! DEFINITION. The meaning of `DECODE`, the block's one operation (40_decode.md R47), and the same as the total
function from an input word to the output record (10_state.md R20). -/

namespace Sys2Proof.Machine

/-- `DECODE` with the fields `sgn`, `e`, `m` of its operand: all six output ports are written, and nothing else
changes; no flag, no exception, no other outcome (R47, R24, R59). -/
def execDecode (sgn : SignBit) (e : ExpField) (m : MantField) (s : State) :
    Host.Outcome State Fault Refusal :=
  .next (s.setOutputs (portsOf sgn e m))

/-- `decode : (in_value : 24 bits) -> DecoderOutputs` of R20: `DECODE(v)`. -/
def decodeOutputs (v : F24) : DecoderOutputs :=
  portsOf (signBit v) (expField v) (mantField v)

end Sys2Proof.Machine
end

