-- ==== Sys2Proof/Machine/Step.lean ====
section
/-! DEFINITION. One step is one observation of settled outputs (70_reset_and_hazards.md R81): the driver makes its
next presentation, if it has one, and the outputs settle. -/

namespace Sys2Proof.Machine

/-- A defined word on the port is decoded and its operation run (R77, R44); an input with an undefined bit selects
no operation and leaves every output unspecified (R78). -/
def step (s : State) : Host.Outcome State Fault Refusal :=
  match s.advance.inValue.word? with
  | some v => exec (decodeWord v) s.advance
  | none => .next s.advance.observeUndefined

/-- The next presentation is the table word `w` of `nbits` bits: put in front of what the driver has to present,
which is where `step` takes its next input (log entries 4 and 6). -/
def State.withFetchWord (s : State) (nbits w : Nat) : State :=
  s.presentingInteger (w % 2 ^ nbits)

end Sys2Proof.Machine
end

