-- ==== Sys2Proof/Machine/Value.lean ====
section
/-! DEFINITION. What the words mean as numbers: the rational value of an F24 word (R36) and of a binary64 word
(R41), and the source's formula evaluated with rounding after every operation (R50). The meaning of `DECODE` uses
none of this; statements about it do. -/

namespace Sys2Proof.Machine

/-- -1 if the sign bit is 1, else +1 (R31). -/
def signOf (s : SignBit) : ℚ := if s = 1#1 then -1 else 1

/-- The value of an F24 word: `sign * 2^(e - 32) * (1 + m / 2^17)`, exactly (R36, first line; R9). -/
def f24Value (v : F24) : ℚ :=
  signOf (signBit v) * (2 : ℚ) ^ ((expField v).toNat - 32 : ℤ) * (1 + (mantField v).toNat / 2 ^ 17)

/-- What a binary64 word encodes, by the classes of R41. -/
inductive Bin64 where
  /-- `E` from 1 to 2046. -/
  | normal (q : ℚ)
  /-- `E = 0`, `F = 0`: `+0` or `-0`. -/
  | zero (negative : Bool)
  /-- `E = 0`, `F` not 0. -/
  | subnormal (q : ℚ)
  /-- `E = 2047`, `F = 0`. -/
  | infinity (negative : Bool)
  /-- `E = 2047`, `F` not 0. -/
  | nan
deriving DecidableEq, Repr

/-- The sign field `S` of a binary64 word, bit 63 (R40). -/
def b64Sign (w : B64) : BitVec 1 := w.extractLsb' 63 1

/-- The exponent field `E` of a binary64 word, bits 62 to 52 (R40). -/
def b64Exp (w : B64) : BitVec 11 := w.extractLsb' 52 11

/-- The fraction field `F` of a binary64 word, bits 51 to 0 (R40). -/
def b64Frac (w : B64) : BitVec 52 := w.extractLsb' 0 52

/-- `bin64(w)`, row by row of R41's table. -/
def bin64 (w : B64) : Bin64 :=
  if b64Exp w = 0#11 then
    if b64Frac w = 0#52 then .zero (b64Sign w == 1#1)
    else .subnormal (signOf (b64Sign w) * (2 : ℚ) ^ (-1022 : ℤ) * ((b64Frac w).toNat / 2 ^ 52))
  else if b64Exp w = 2047#11 then
    if b64Frac w = 0#52 then .infinity (b64Sign w == 1#1) else .nan
  else .normal (signOf (b64Sign w) * (2 : ℚ) ^ ((b64Exp w).toNat - 1023 : ℤ) * (1 + (b64Frac w).toNat / 2 ^ 52))

/-- The real number of a finite binary64 word; none for an infinity or a NaN. -/
def Bin64.real? : Bin64 → Option ℚ
  | .normal q | .subnormal q => some q
  | .zero _ => some 0
  | .infinity _ | .nan => none

/-- A rounding of exact results that gives back every number binary64 holds, as every IEEE-754 rounding mode does
(93_implementation_defined.md K3). PRESUMED, log entry 7. -/
def ExactOnBinary64 (rnd : ℚ → ℚ) : Prop :=
  ∀ w q, (bin64 w).real? = some q → rnd q = q

/-- The document's formula evaluated step by step, each result rounded by `rnd` (R50). -/
def roundedValue (rnd : ℚ → ℚ) (v : F24) : ℚ :=
  rnd (rnd (signOf (signBit v) * rnd ((2 : ℚ) ^ ((expField v).toNat - 32 : ℤ)))
    * rnd (1 + rnd ((mantField v).toNat / 2 ^ 17)))

end Sys2Proof.Machine
end

