-- ==== Sys2Proof/Machine/Flags.lean ====
section
/-! DEFINITION. The block has no status flags, condition codes or predicates and sets no floating-point exception
flag (10_state.md R16), so no flag is computed by any meaning and State holds none. This file only says what the
five IEEE-754 conditions of a conversion are, so that it can be stated that none of them arises (R16, R51). -/

namespace Sys2Proof.Machine

/-- The five IEEE-754 exception conditions by the names R16 gives them (K4). -/
structure FloatConditions where
  /-- The result is a NaN. -/
  invalid : Bool
  /-- Division by zero: a conversion divides by nothing. -/
  divisionByZero : Bool
  /-- A finite value became an infinity. -/
  overflow : Bool
  /-- A tiny result that is not exact. -/
  underflow : Bool
  /-- The result is not the exact value. -/
  inexact : Bool
deriving DecidableEq, Repr

/-- The conditions of a conversion that delivers the word `w` for the exact finite value `q`. What each flag means
is IEEE-754's, not the spec's: PRESUMED, log entry 7. -/
def conversionConditions (q : ℚ) (w : B64) : FloatConditions where
  invalid := bin64 w == .nan
  divisionByZero := false
  overflow := match bin64 w with
    | .infinity _ => true
    | _ => false
  underflow := match bin64 w with
    | .zero _ => q != 0
    | .subnormal r => r != q
    | _ => false
  inexact := (bin64 w).real? != some q

/-- No condition arises. -/
def FloatConditions.none : FloatConditions where
  invalid := false
  divisionByZero := false
  overflow := false
  underflow := false
  inexact := false

end Sys2Proof.Machine
end

