-- ==== Sys2Proof/Safety.lean ====
section
/-! DEFINITION. The terms statements about runs use: what a run observes (70_reset_and_hazards.md R84) and what a
good state is. -/

namespace Sys2Proof.Machine

/-- The output records of the first `n` steps from `s`, in order (R84: "Its observation is the sequence ..."). A
step that stopped would end the list. -/
def observation : Nat → State → List DecoderOutputs
  | 0, _ => []
  | n + 1, s =>
    match step s with
    | .next t => t.outputs :: observation n t
    | .fault _ | .refused _ => []

/-- The outputs have settled: while `in_value` holds a defined word, the six outputs are `DECODE(in_value)`
(R77). -/
def Settled (s : State) : Prop := ∀ v, s.inValue.word? = some v → s.outputs = decodeOutputs v

/-- Every presentation the driver still has to make is a defined word, as those of a run are (R84). -/
def DefinedRun (s : State) : Prop := ∀ p ∈ s.pending, p.isDefined = true

/-- A good state in a run: settled outputs and a run of defined words. -/
def RunInvariant (s : State) : Prop := Settled s ∧ DefinedRun s

/-- The machine goes on for every number of steps. -/
def RunsForever (s : State) : Prop := ∀ n, ∃ t, Host.Core.run Sys2Proof.core n s = .next t

end Sys2Proof.Machine
end

