-- ==== Sys2Proof/Certificates/Slice0/Obligations.lean ====
section
/-! DEFINITION. The statements for the provers. Each docstring names the rule it formalises. `v` is an input word;
`s.presenting v` is the state `s` in which the driver is about to present `v`. -/

open Sys2Proof Sys2Proof.Machine

/-! ### The operation -/

/-- R47: `DECODE` of any word writes the six ports by the rule's pseudocode and nothing else; its corner cases and
worked example are the words and numbers the rule gives. -/
def Obligations.DecodeWritesSixPorts : Prop :=
  (∀ (v : F24) (s : State),
    exec (decodeWord v) s = .next
      { s with outputs :=
        { signO := v.extractLsb' 23 1
          expFieldO := v.extractLsb' 17 6
          expUnbiasedO := ~~~(v.extractLsb' 22 1) ++ v.extractLsb' 17 5
          mantFieldO := v.extractLsb' 0 17
          significandO := 1#1 ++ v.extractLsb' 0 17
          outF64 := v.extractLsb' 23 1 ++ ((v.extractLsb' 17 6).zeroExtend 11 + 0x3DF#11)
            ++ v.extractLsb' 0 17 ++ 0#35 } }) ∧
  ((decodeOutputs 0x000000#24).outF64 = 0x3DF0000000000000#64 ∧ bin64 0x3DF0000000000000#64 = .normal (1 / 2 ^ 32)) ∧
  ((decodeOutputs 0x800000#24).outF64 = 0xBDF0000000000000#64 ∧ bin64 0xBDF0000000000000#64 = .normal (-(1 / 2 ^ 32))) ∧
  ((decodeOutputs 0x7FFFFF#24).outF64 = 0x41EFFFF800000000#64 ∧ bin64 0x41EFFFF800000000#64 = .normal 4294950912) ∧
  ((decodeOutputs 0x3FFFFD#24).outF64 = 0x3FEFFFE800000000#64 ∧
    bin64 0x3FEFFFE800000000#64 = .normal (262141 / 262144) ∧
    0x3FEFFFE800000000#64 = 0#1 ++ 0x3FE#11 ++ 0x1FFFD#17 ++ 0#35 ∧
    decodeWord 0x3FFFFD#24 = .decode 0#1 31#6 0x1FFFD#17)

/-- R53, R67, R59: every instruction, with every operand, completes from every state; the frame is that only the
output ports change. -/
def Obligations.EveryInstructionCompletes : Prop :=
  ∀ (sgn : SignBit) (e : ExpField) (m : MantField) (s : State),
    exec (.decode sgn e m) s = .next
      { s with outputs :=
        { outF64 := sgn ++ (e.zeroExtend 11 + 0x3DF#11) ++ m ++ 0#35
          signO := sgn
          expFieldO := e
          expUnbiasedO := e - 32#6
          mantFieldO := m
          significandO := m.zeroExtend 18 + 0x20000#18 } }

/-- R15, R44, R84: a step runs the decoded instruction. Where the next presentation (or, with none left, the port as
it stands) holds a defined word `v`, the step is `exec` of the decoded `v`, after the presentation has been made. That
a step takes the next queued presentation, and that with none left the port is observed again, is the model's choice:
log entry 3. -/
def Obligations.StepRunsDecodedInstruction : Prop :=
  (∀ (s : State) (p : InPort) (ps : List InPort) (v : F24), s.pending = p :: ps → p.word? = some v →
    step s = exec (decodeWord v) { s with inValue := p, pending := ps }) ∧
  (∀ (s : State) (v : F24), s.pending = [] → s.inValue.word? = some v → step s = exec (decodeWord v) s)

/-- R77: from any state whatever, with no reset and whatever came before, presenting a defined word leaves the six
outputs at `DECODE` of it. -/
def Obligations.PresentedWordIsDecoded : Prop :=
  ∀ (s : State) (v : F24),
    step (s.presenting v) = .next { s with inValue := InPort.ofWord v, outputs := decodeOutputs v } ∧
    (InPort.ofWord v).word? = some v

/-- R59: the six outputs depend on the instruction alone, not on the state, and the state is not changed but for
the outputs. -/
def Obligations.DecodeIsPure : Prop :=
  ∀ (i : Instr) (s₁ s₂ : State), ∃ o,
    exec i s₁ = .next { s₁ with outputs := o } ∧ exec i s₂ = .next { s₂ with outputs := o }

/-- R13, R20, R82, over whole runs: whatever two states start from, whatever was presented, and however many steps
each run takes, if both runs end with the same defined word on the port, they end with the same six outputs. -/
def Obligations.OutputsDependOnInputAlone : Prop :=
  ∀ (s₁ s₂ t₁ t₂ : State) (n₁ n₂ : Nat) (v : F24),
    Host.Core.run Sys2Proof.core (n₁ + 1) s₁ = .next t₁ → Host.Core.run Sys2Proof.core (n₂ + 1) s₂ = .next t₂ →
    t₁.inValue.word? = some v → t₂.inValue.word? = some v → t₁.outputs = t₂.outputs

/-- What a step does to the model's own queue and counter, which are the model's choice and no state of the spec (log
entries 3 and 1): it takes exactly the next presentation and keeps the others, the port carries that presentation
afterwards (or what it carried, with none left), and the counter of free values moves only when the port then has an
undefined bit. They stand for the driver's sequence of R15 and R84 and for the fresh values of R78. -/
def Obligations.StepTakesOnePresentation : Prop :=
  ∀ s t : State, step s = .next t →
    t.pending = s.pending.tail ∧ t.inValue = s.pending.headD s.inValue ∧
    t.draws = (if t.inValue.isDefined then s.draws else s.draws + 1)

/-- R24: one decode takes the whole word and produces all six outputs from it, and while the port holds the word,
reading any number of times gives the same words. -/
def Obligations.RepeatedReadingIsStable : Prop :=
  ∀ (s : State) (v : F24) (n : Nat), s.pending = [] → s.inValue.word? = some v →
    ∃ t, step s = .next t ∧ t = { s with outputs := decodeOutputs v } ∧
      Host.Core.run Sys2Proof.core (n + 1) s = .next t

/-! ### Reset, undefined inputs, runs -/

/-- R78 in the model's form (log entry 1): where any bit of the port is not driven to a defined 0 or 1, every
output is a free value, drawn afresh. -/
def Obligations.UndefinedInputLeavesOutputsFree : Prop :=
  ∀ (s : State), (∃ i : Fin 24, (s.pending.headD s.inValue).pins[i] = .undefined) →
    step s = .next
      { inValue := s.pending.headD s.inValue
        pending := s.pending.tail
        outputs := freeOutputs s.draws
        draws := s.draws + 1 }

/-- The converse side of R78: the port holds a word exactly when every bit is driven to a defined 0 or 1, and bit
`i` of that word is then what drives pin `i` (R22). -/
def Obligations.PortWordIsItsPins : Prop :=
  ∀ (p : InPort) (v : F24),
    p.word? = some v ↔ ∀ i : Fin 24, p.pins[i] = (if v.getLsbD i then Pin.high else Pin.low)

/-- Power-up (R78, R79, 95_test_vectors.md section 3): no input bit is defined, and nothing is to be presented.
The outputs are free values (log entries 1 and 2). -/
def Obligations.ResetHasNoDefinedInput : Prop :=
  (∀ i : Fin 24, State.reset.inValue.pins[i] = .undefined) ∧ State.reset.pending = [] ∧
    State.reset.outputs = freeOutputs 0

/-- R67, R69, R71, R20: no input is refused, faults or gets stuck. From every state, also with undefined inputs,
the machine runs for every number of steps. -/
def Obligations.MachineNeverStops : Prop := ∀ s : State, RunsForever s

/-- The run invariant holds after power-up. -/
def Obligations.RunInvariantAtReset : Prop := RunInvariant State.reset

/-- The run invariant is kept by every step; after a step from a run of defined words (R84) that had one left, the
port holds a defined word and the outputs are `DECODE` of it. -/
def Obligations.StepKeepsRunInvariant : Prop :=
  ∀ s t : State, RunInvariant s → step s = .next t →
    RunInvariant t ∧
    (s.pending ≠ [] → ∃ v, t.inValue.word? = some v ∧ t.outputs = decodeOutputs v)

/-- R84: a run of presentations is observed as the sequence of their output records, from any state; it ends after
the last, with that record on the outputs; a run of length zero observes nothing. -/
def Obligations.RunObservesDecodeOfEachWord : Prop :=
  ∀ (s : State) (vs : List F24),
    observation vs.length (s.withRun vs) = vs.map decodeOutputs ∧
    ∃ t, Host.Core.run Sys2Proof.core vs.length (s.withRun vs) = .next t ∧ t.pending = [] ∧
      ∀ v, vs.getLast? = some v → t.outputs = decodeOutputs v

/-- R80, R30: a driver that holds an integer presents its low 24 bits. -/
def Obligations.PresentedIntegerIsMasked : Prop :=
  ∀ (s : State) (n : Nat), ∃ v : F24, v.toNat = n % 2 ^ 24 ∧ (∀ i < 24, v.getLsbD i = n.testBit i) ∧
    step (s.presentingInteger n) = .next { s with inValue := InPort.ofWord v, outputs := decodeOutputs v }

/-! ### Encoding -/

/-- Decoding the encoding of any instruction gives it back, with every operand at every value. -/
def Obligations.DecodeOfEncode : Prop :=
  ∀ i : Instr, i.wf = true ∧ decode (encode i).toNat = .ok i ∧ decodeTableWord 24 (encode i).toNat = some i

/-- R30 and R45 of the decoder: every integer that fits the port is an encoding, of the instruction whose encoding
it is, and every wider one is refused by name. -/
def Obligations.EncodeOfDecode : Prop :=
  ∀ n : Nat,
    (n < 2 ^ 24 → ∃ i, decode n = .ok i ∧ (encode i).toNat = n ∧ ∀ j, (encode j).toNat = n → j = i) ∧
    (2 ^ 24 ≤ n → decode n = .error .widerThan24Bits)

/-- R44: there is one operation, `DECODE`; every word matches mask 0x000000 and match 0x000000, and selects it with
the word's fields. -/
def Obligations.EveryWordSelectsDecode : Prop :=
  (∀ i : Instr, ∃ s e m, i = .decode s e m) ∧
  ∀ v : F24, v &&& 0x000000#24 = 0x000000#24 ∧
    decodeWord v = .decode (v.extractLsb' 23 1) (v.extractLsb' 17 6) (v.extractLsb' 0 17)

/-- Words written out from the field layout of R29 decode to the instructions they stand for. -/
def Obligations.WrittenWordsDecode : Prop :=
  decodeWord 0b0_011111_11111111111111101#24 = .decode 0#1 31#6 0x1FFFD#17 ∧
  decodeWord 0b1_010101_11100110111101111#24 = .decode 1#1 21#6 0x1CDEF#17 ∧
  decodeWord 0b0_001001_00011010001010110#24 = .decode 0#1 9#6 0x03456#17 ∧
  decodeWord 0b1_000000_00000000000000000#24 = .decode 1#1 0#6 0x00000#17

/-- R46: each accepted form presents the word the rule gives. (That a hexadecimal constant has at least one digit is
the model's: log entry 8.) -/
def Obligations.WrittenFormsExpand : Prop :=
  (∀ s e m : Nat, s ≤ 1 → e ≤ 63 → m ≤ 0x1FFFF →
    ∃ v : F24, v.toNat = (s <<< 23) ||| (e <<< 17) ||| m ∧ (Stimulus.fields s e m).expand = .ok v ∧
      v = BitVec.ofNat 1 s ++ BitVec.ofNat 6 e ++ BitVec.ofNat 17 m) ∧
  (∀ s u m : Int, (Stimulus.unbiased s u m).expand = (Stimulus.fields s (u + 32) m).expand) ∧
  (∀ digits : List (Fin 16), 1 ≤ digits.length → digits.length ≤ 6 →
    ∃ v : F24, v.toNat = Nat.ofDigits 16 (digits.reverse.map Fin.val) ∧ (Stimulus.hex digits).expand = .ok v)

/-- R46: a written form is accepted exactly when it is well formed; any other is refused, not masked. That a
hexadecimal constant with no digit is not well formed is the model's, not R46's: log entry 8. -/
def Obligations.WrittenFormsAcceptedIffWellFormed : Prop :=
  ∀ f : Stimulus, (f.wf = true ↔ ∃ v, f.expand = .ok v) ∧ (f.wf = false ↔ ∃ err, f.expand = .error err)

/-! ### Fields and bits of the outputs -/

/-- R34: `sint(exp_unbiased_o) = uint(e) - 32`, within -32 to 31; the port is `e` with bit 5 flipped, which is
`e + 32` modulo 64; and the rule's selected values. -/
def Obligations.UnbiasedExponentIsExact : Prop :=
  ∀ v : F24,
    (decodeOutputs v).expUnbiasedO = ~~~(v.extractLsb' 22 1) ++ v.extractLsb' 17 5 ∧
    (decodeOutputs v).expUnbiasedO = v.extractLsb' 17 6 + 32#6 ∧
    (decodeOutputs v).expUnbiasedO.toInt = ((v.extractLsb' 17 6).toNat : Int) - 32 ∧
    -32 ≤ (decodeOutputs v).expUnbiasedO.toInt ∧ (decodeOutputs v).expUnbiasedO.toInt ≤ 31 ∧
    ∀ r ∈ [(0#6, 0b100000#6), (31#6, 0b111111#6), (32#6, 0b000000#6), (63#6, 0b011111#6)],
      v.extractLsb' 17 6 = r.1 → (decodeOutputs v).expUnbiasedO = r.2

/-- R35: `significand_o = 1 :: m`, `uint(significand_o) = 2^17 + uint(m)`, a value in [1, 2 - 2^-17]. -/
def Obligations.SignificandHasLeadingOne : Prop :=
  ∀ v : F24,
    (decodeOutputs v).significandO = 1#1 ++ v.extractLsb' 0 17 ∧
    (decodeOutputs v).significandO.toNat = 2 ^ 17 + (v.extractLsb' 0 17).toNat ∧
    ((decodeOutputs v).significandO.toNat : ℚ) / 2 ^ 17 = 1 + (v.extractLsb' 0 17).toNat / 2 ^ 17 ∧
    1 ≤ ((decodeOutputs v).significandO.toNat : ℚ) / 2 ^ 17 ∧
    ((decodeOutputs v).significandO.toNat : ℚ) / 2 ^ 17 ≤ 2 - 1 / 2 ^ 17

/-- R42: the four output fields, the word they make, and `E = sint(exp_unbiased_o) + 1023`. -/
def Obligations.OutputFieldsArePlaced : Prop :=
  ∀ v : F24,
    (decodeOutputs v).outF64.extractLsb' 63 1 = signBit v ∧
    (decodeOutputs v).outF64.extractLsb' 52 11 = (expField v).zeroExtend 11 + 0x3DF#11 ∧
    (decodeOutputs v).outF64.extractLsb' 35 17 = mantField v ∧
    (decodeOutputs v).outF64.extractLsb' 0 35 = 0#35 ∧
    (decodeOutputs v).outF64 = signBit v ++ ((expField v).zeroExtend 11 + 0x3DF#11) ++ mantField v ++ 0#35 ∧
    (((decodeOutputs v).outF64.extractLsb' 52 11).toNat : Int) = (decodeOutputs v).expUnbiasedO.toInt + 1023

/-- R43: `E = uint(e) + 991` exactly, within [0x3DF, 0x41E], so the output is normal: never zero, subnormal,
infinite or NaN; and the rows of the rule's table. -/
def Obligations.ExponentAdderNeverWraps : Prop :=
  ∀ v : F24,
    (b64Exp (decodeOutputs v).outF64).toNat = (expField v).toNat + 991 ∧
    0x3DF ≤ (b64Exp (decodeOutputs v).outF64).toNat ∧ (b64Exp (decodeOutputs v).outF64).toNat ≤ 0x41E ∧
    (∃ q, bin64 (decodeOutputs v).outF64 = .normal q) ∧
    ∀ r ∈ [(0, -32, 991), (1, -31, 992), (31, -1, 1022), (32, 0, 1023), (33, 1, 1024), (63, 31, 1054)],
      (expField v).toNat = r.1 →
        (decodeOutputs v).expUnbiasedO.toInt = r.2.1 ∧ (b64Exp (decodeOutputs v).outF64).toNat = r.2.2

/-- R64: the six outputs agree with one another, after every step that leaves a defined word on the port. -/
def Obligations.PortsAgree : Prop :=
  ∀ s t : State, step s = .next t → t.inValue.isDefined = true →
    t.outputs.outF64.extractLsb' 63 1 = t.outputs.signO ∧
    t.outputs.outF64.extractLsb' 52 11 = t.outputs.expFieldO.zeroExtend 11 + 0x3DF#11 ∧
    t.outputs.outF64.extractLsb' 52 11 = t.outputs.expUnbiasedO.signExtend 11 + 0x3FF#11 ∧
    t.outputs.outF64.extractLsb' 35 17 = t.outputs.mantFieldO ∧
    t.outputs.outF64.extractLsb' 0 35 = 0#35 ∧
    t.outputs.significandO = 1#1 ++ t.outputs.mantFieldO ∧
    t.outputs.expUnbiasedO.toInt = (t.outputs.expFieldO.toNat : Int) - 32

/-- R65: the input can be recovered from `out_f64`, so `DECODE` is injective on it; exactly 2^24 binary64 words
are outputs, those with `w[34:0] = 0` and `w[62:52]` in [0x3DF, 0x41E], with either sign. -/
def Obligations.InputIsRecoverable : Prop :=
  (∀ v : F24,
    v = (decodeOutputs v).outF64.extractLsb' 63 1
      ++ ((decodeOutputs v).outF64.extractLsb' 52 11 - 0x3DF#11).extractLsb' 0 6
      ++ (decodeOutputs v).outF64.extractLsb' 35 17) ∧
  Function.Injective (fun v : F24 => (decodeOutputs v).outF64) ∧
  (∀ w : B64, (∃ v, (decodeOutputs v).outF64 = w) ↔
    (w.extractLsb' 0 35 = 0#35 ∧ 0x3DF ≤ (w.extractLsb' 52 11).toNat ∧ (w.extractLsb' 52 11).toNat ≤ 0x41E)) ∧
  (Set.range fun v : F24 => (decodeOutputs v).outF64).ncard = 2 ^ 24

/-- Each mantissa bit lands at one output place and the sign bit at bit 63 (95_test_vectors.md 2.2, from R47);
changing a mantissa or sign bit of the input changes that one bit of `out_f64` and no other. -/
def Obligations.InputBitsLandAtOnePlace : Prop :=
  ∀ v : F24,
    (∀ i < 17, (decodeOutputs v).outF64.getLsbD (35 + i) = v.getLsbD i ∧
      (decodeOutputs (v ^^^ BitVec.twoPow 24 i)).outF64 =
        (decodeOutputs v).outF64 ^^^ BitVec.twoPow 64 (35 + i)) ∧
    (decodeOutputs v).outF64.getLsbD 63 = v.getLsbD 23 ∧
    (decodeOutputs (v ^^^ 0x800000#24)).outF64 = (decodeOutputs v).outF64 ^^^ 0x8000000000000000#64

/-! ### Values -/

/-- R48: the output has exactly the document's value, for every word presented from every state. -/
def Obligations.OutputHasExactValue : Prop :=
  ∀ (s : State) (v : F24), ∃ t, step (s.presenting v) = .next t ∧
    bin64 t.outputs.outF64 = .normal (f24Value v) ∧
    f24Value v = (if v.getLsbD 23 then -1 else 1) * (2 : ℚ) ^ (((v.extractLsb' 17 6).toNat : Int) - 32)
      * (1 + (v.extractLsb' 0 17).toNat / 2 ^ 17)

/-- R36: the value by the document's formula, and the same number with an integer significand. -/
def Obligations.ValueHasIntegerSignificand : Prop :=
  ∀ v : F24,
    f24Value v = (if v.extractLsb' 23 1 = 1#1 then -1 else 1) * (2 : ℚ) ^ (((v.extractLsb' 17 6).toNat : Int) - 32)
      * (1 + (v.extractLsb' 0 17).toNat / 2 ^ 17) ∧
    f24Value v = (if v.extractLsb' 23 1 = 1#1 then -1 else 1) * (2 ^ 17 + (v.extractLsb' 0 17).toNat)
      * (2 : ℚ) ^ (((v.extractLsb' 17 6).toNat : Int) - 49)

/-- R37: the range of the values, with both ends taken; never zero; multiples of 2^-49; symmetric in sign. -/
def Obligations.ValueRange : Prop :=
  (∀ v : F24, (1 : ℚ) / 2 ^ 32 ≤ |f24Value v| ∧ |f24Value v| ≤ 4294950912 ∧ f24Value v ≠ 0 ∧
    (∃ k : Int, f24Value v = k * (1 / 2 ^ 49)) ∧ f24Value (v ^^^ 0x800000#24) = -f24Value v) ∧
  (∀ v : F24, expField v = 0#6 → mantField v = 0#17 → |f24Value v| = 1 / 2 ^ 32) ∧
  (∀ v : F24, expField v = 63#6 → mantField v = 131071#17 →
    |f24Value v| = 4294950912 ∧ |f24Value v| = (2 ^ 18 - 1) * 2 ^ 14)

/-- R38: distinct words have distinct values, and for equal sign the magnitude increases with `uint(v[22:0])`. -/
def Obligations.ValueIsInjectiveAndMonotone : Prop :=
  (∀ v w : F24, v ≠ w → f24Value v ≠ f24Value w) ∧
  (∀ v w : F24, v.getLsbD 23 = w.getLsbD 23 →
    (v.extractLsb' 0 23).toNat < (w.extractLsb' 0 23).toNat → |f24Value v| < |f24Value w|)

/-- R52: the output's sign is the input's sign bit; the value is negative exactly then; -0 is never produced;
negation is exact. -/
def Obligations.SignIsCopied : Prop :=
  ∀ v : F24,
    (decodeOutputs v).outF64.getLsbD 63 = v.getLsbD 23 ∧
    (∃ q, (bin64 (decodeOutputs v).outF64).real? = some q ∧ (q < 0 ↔ v.getLsbD 23 = true)) ∧
    bin64 (decodeOutputs v).outF64 ≠ .zero true ∧
    (decodeOutputs (v ^^^ 0x800000#24)).outF64 = (decodeOutputs v).outF64 ^^^ 0x8000000000000000#64

/-- R53: every word presented from every state produces an output, and it is finite: not NaN, not infinite. -/
def Obligations.DecodeIsTotalAndFinite : Prop :=
  ∀ (s : State) (n : Nat), n < 2 ^ 24 → ∃ t q, step (s.presentingInteger n) = .next t ∧
    (bin64 t.outputs.outF64).real? = some q ∧ bin64 t.outputs.outF64 ≠ .nan ∧
    ∀ negative, bin64 t.outputs.outF64 ≠ .infinity negative

/-- R54: the decoded value of an integer below 2^24 is negative if and only if its bit 23 is set. -/
def Obligations.NegativeIffBit23 : Prop :=
  ∀ (s : State) (n : Nat), n < 2 ^ 24 → ∃ t q, step (s.presentingInteger n) = .next t ∧
    (bin64 t.outputs.outF64).real? = some q ∧ (q < 0 ↔ n.testBit 23 = true)

/-- R55: the all-zero word is 2^-32, and no input gives a zero. -/
def Obligations.ZeroWordIsNotZero : Prop :=
  (decodeOutputs 0x000000#24).outF64 = 0x3DF0000000000000#64 ∧
  bin64 (decodeOutputs 0x000000#24).outF64 = .normal (1 / 2 ^ 32) ∧
  |(1 / 2 ^ 32 : ℚ) - 23283064365386963 / 10 ^ 26| < 1 / 10 ^ 26 ∧
  ∀ (v : F24) (q : ℚ), (bin64 (decodeOutputs v).outF64).real? = some q → q ≠ 0

/-- R56: the known example, step by step. -/
def Obligations.KnownExample : Prop :=
  (0x3FFFFD#24).getLsbD 23 = false ∧
  (0x3FFFFD &&& 0x7E0000) >>> 17 = 31 ∧ expField 0x3FFFFD#24 = 31#6 ∧ (2 : ℚ) ^ ((31 : Int) - 32) = 0.5 ∧
  0x3FFFFD &&& 0x01FFFF = 131069 ∧ mantField 0x3FFFFD#24 = 131069#17 ∧
  bin64 (decodeOutputs 0x3FFFFD#24).outF64 = .normal (262141 / 262144) ∧
  (0.5 : ℚ) * (1 + 131069 / 131072) = 262141 / 262144 ∧
  |(131069 / 131072 : ℚ) - 0.99997711| < 0.00000001 ∧ |(262141 / 262144 : ℚ) - 0.999988556| < 0.000000001 ∧
  |(262141 / 262144 : ℚ) - 0.99998855590820312| < 0.00000000000000001 ∧
  (decodeOutputs 0x3FFFFD#24).outF64 = 0x3FEFFFE800000000#64

/-- R57: one more in the mantissa field is a strictly larger magnitude, by exactly 2^(e-49); and where the field is
full but the exponent is not, adding 1 to the word carries into `e` and still gives a larger magnitude. -/
def Obligations.MantissaIsMonotone : Prop :=
  ∀ v : F24, ∃ q r : ℚ, (bin64 (decodeOutputs v).outF64).real? = some q ∧
    (bin64 (decodeOutputs (v + 1#24)).outF64).real? = some r ∧
    ((mantField v).toNat < 0x1FFFF → |q| < |r| ∧ |r| - |q| = (2 : ℚ) ^ (((expField v).toNat : Int) - 49)) ∧
    ((mantField v).toNat = 0x1FFFF → (expField v).toNat < 63 →
      (expField (v + 1#24)).toNat = (expField v).toNat + 1 ∧ |q| < |r|)

/-- R58: one more in the exponent field doubles the value exactly, and `out_f64` grows by one unit of `E`. -/
def Obligations.ExponentDoublesValue : Prop :=
  ∀ v : F24, (expField v).toNat < 63 →
    (decodeOutputs (v + 0x020000#24)).outF64.toNat = (decodeOutputs v).outF64.toNat + 0x0010000000000000 ∧
    ∃ q r : ℚ, (bin64 (decodeOutputs v).outF64).real? = some q ∧
      (bin64 (decodeOutputs (v + 0x020000#24)).outF64).real? = some r ∧ r = 2 * q

/-- R50: the value is a binary64 number, and the document's formula evaluated step by step, under any rounding that
gives back what binary64 holds, has every step exact and ends at R47's word and no other. (What a rounding is, is
the model's: log entry 7.) -/
def Obligations.RoundedEvaluationGivesSameBits : Prop :=
  ∀ (rnd : ℚ → ℚ) (v : F24), ExactOnBinary64 rnd →
    rnd ((mantField v).toNat / 2 ^ 17) = (mantField v).toNat / 2 ^ 17 ∧
    rnd (1 + (mantField v).toNat / 2 ^ 17) = 1 + (mantField v).toNat / 2 ^ 17 ∧
    rnd ((2 : ℚ) ^ ((expField v).toNat - 32 : ℤ)) = (2 : ℚ) ^ ((expField v).toNat - 32 : ℤ) ∧
    roundedValue rnd v = f24Value v ∧
    ∀ w : B64, (bin64 w).real? = some (roundedValue rnd v) ↔ w = (decodeOutputs v).outF64

/-- R16, R51: no IEEE-754 exception condition arises in the conversion of any word. (What the five conditions are,
is the model's: log entry 7.) -/
def Obligations.NoFloatConditionArises : Prop :=
  ∀ v : F24, conversionConditions (f24Value v) (decodeOutputs v).outF64 = FloatConditions.none
end

