-- ==== Sys2Proof/Laws/Operands.lean ====
section
/-! SUPPORT. What reading the input port gives: it holds a word exactly when every pin is defined, bit `i` of that
word is what pin `i` carries, and the word a driver puts there is the word read. -/

namespace Sys2Proof.Machine

@[simp] theorem Pin.bit?_ofBool (b : Bool) : (Pin.ofBool b).bit? = some b := by cases b <;> rfl

/-- A list of pins has a value exactly when each of them is defined. -/
theorem pinsValue?_isSome (l : List Pin) : (pinsValue? l).isSome = l.all fun q => q.bit?.isSome := by
  induction l with
  | nil => rfl
  | cons q qs ih =>
    cases hq : q.bit? <;> cases hv : pinsValue? qs <;> simp_all [pinsValue?]

/-- Bit `i` of the value of a list of pins is what the pin at place `i` carries, and 0 past its end. -/
theorem testBit_of_pinsValue? {l : List Pin} {n : Nat} (h : pinsValue? l = some n) (i : Nat) :
    (l[i]?.bind Pin.bit?).getD false = n.testBit i := by
  induction l generalizing n i with
  | nil => simp [pinsValue?] at h; simp [← h]
  | cons q qs ih =>
    cases hq : q.bit? with
    | none => simp [pinsValue?, hq] at h
    | some b =>
      cases hv : pinsValue? qs with
      | none => simp [pinsValue?, hq, hv] at h
      | some k =>
        simp only [pinsValue?, hq, hv, Option.some.injEq] at h
        cases i with
        | zero => cases b <;> simp [← h, hq, Nat.testBit_zero]
        | succ i =>
          have hdiv : n / 2 = k := by cases b <;> simp at h <;> omega
          rw [Nat.testBit_succ, hdiv, ← ih hv i]
          simp

theorem InPort.word?_isSome (p : InPort) : p.word?.isSome = p.isDefined := by
  simp [InPort.word?, InPort.isDefined, pinsValue?_isSome]

theorem InPort.exists_word?_iff {p : InPort} : (∃ v, p.word? = some v) ↔ p.isDefined = true := by
  rw [← InPort.word?_isSome, Option.isSome_iff_exists]

theorem InPort.word?_eq_none_iff {p : InPort} : p.word? = none ↔ p.isDefined = false := by
  rw [← InPort.word?_isSome, Option.isSome_eq_false_iff, Option.isNone_iff_eq_none]

theorem InPort.isDefined_iff {p : InPort} :
    p.isDefined = true ↔ ∀ i (hi : i < 24), p.pins[i].bit?.isSome = true := by
  simp [InPort.isDefined]

/-- Every pin of a port that holds a word carries that word's bit. -/
theorem InPort.bit?_of_word? {p : InPort} {v : F24} (h : p.word? = some v) (i : Nat) (hi : i < 24) :
    p.pins[i].bit? = some (v.getLsbD i) := by
  have hd := InPort.isDefined_iff.mp (InPort.exists_word?_iff.mp ⟨v, h⟩) i hi
  obtain ⟨b, hb⟩ := Option.isSome_iff_exists.mp hd
  simp only [InPort.word?, Option.map_eq_some_iff] at h
  obtain ⟨n, hn, rfl⟩ := h
  have ht := testBit_of_pinsValue? hn i
  have hl : p.pins.toList[i]? = some p.pins[i] := by simp [hi]
  rw [hl, Option.bind_some, hb, Option.getD_some] at ht
  rw [hb, BitVec.getLsbD_ofNat, ht]
  simp [hi]

theorem InPort.getElem_ofWord (v : F24) (i : Nat) (hi : i < 24) :
    (InPort.ofWord v).pins[i] = Pin.ofBool (v.getLsbD i) := by
  rw [InPort.ofWord, Vector.getElem_ofFn]

@[simp] theorem InPort.isDefined_ofWord (v : F24) : (InPort.ofWord v).isDefined = true :=
  InPort.isDefined_iff.mpr fun i hi => by rw [InPort.getElem_ofWord, Pin.bit?_ofBool]; rfl

/-- The word a driver puts on the port is the word read there (R11, R22). -/
@[simp] theorem InPort.word?_ofWord (v : F24) : (InPort.ofWord v).word? = some v := by
  obtain ⟨u, hu⟩ := InPort.exists_word?_iff.mpr (InPort.isDefined_ofWord v)
  have huv : u = v := BitVec.eq_of_getLsbD_eq fun i hi => by
    have hb := InPort.bit?_of_word? hu i hi
    rw [InPort.getElem_ofWord, Pin.bit?_ofBool] at hb
    exact (Option.some.inj hb).symm
  rw [hu, huv]

@[simp] theorem InPort.isDefined_undriven : InPort.undriven.isDefined = false := by decide

@[simp] theorem InPort.word?_undriven : InPort.undriven.word? = none := by decide

end Sys2Proof.Machine
end

