-- ==== Sys2Proof/Laws/PerInstr.lean ====
section
/-! SUPPORT. Families of statements with one lemma per instruction (LAWS.json). -/

/-- The encoding of an instruction as a number: each field at its place (R29; R46's
`(s << 23) | (e << 17) | m`). -/
def Sys2Proof.Laws.EncodeFields.Statement : Sys2Proof.Instr → Prop
  | .decode s e m =>
    (Sys2Proof.encode (.decode s e m)).toNat = s.toNat * 2 ^ 23 + e.toNat * 2 ^ 17 + m.toNat

theorem Sys2Proof.Laws.EncodeFields.decode (s : Sys2Proof.SignBit) (e : Sys2Proof.ExpField)
    (m : Sys2Proof.MantField) : Sys2Proof.Laws.EncodeFields.Statement (.decode s e m) := by
  have hs := s.isLt
  have he := e.isLt
  have hm := m.isLt
  have happ : (Sys2Proof.encode (.decode s e m)).toNat = (s.toNat <<< 6 ||| e.toNat) <<< 17 ||| m.toNat := by
    rw [Sys2Proof.encode, BitVec.toNat_append, BitVec.toNat_append]
  rw [Sys2Proof.Laws.EncodeFields.Statement, happ, ← Nat.shiftLeft_add_eq_or_of_lt (by omega),
    ← Nat.shiftLeft_add_eq_or_of_lt (by omega)]
  simp only [Nat.shiftLeft_eq]
  omega
end

