-- ==== Sys2Proof/Laws/Ports.lean ====
section
/-! SUPPORT. The fields of an input word and of the packed output as numbers, for the proofs about bits and
values. -/

namespace Sys2Proof.Machine

theorem signBit_toNat (v : F24) : (signBit v).toNat = v.toNat / 2 ^ 23 := by
  have := v.isLt
  simp only [signBit, BitVec.extractLsb'_toNat, Nat.shiftRight_eq_div_pow]
  omega

theorem expField_toNat (v : F24) : (expField v).toNat = v.toNat / 2 ^ 17 % 2 ^ 6 := by
  rw [expField, BitVec.extractLsb'_toNat, Nat.shiftRight_eq_div_pow]

theorem mantField_toNat (v : F24) : (mantField v).toNat = v.toNat % 2 ^ 17 := by
  rw [mantField, BitVec.extractLsb'_toNat]; rfl

theorem unbias_toInt (e : ExpField) : (unbias e).toInt = (e.toNat : Int) - 32 := by revert e; decide

theorem significand_toNat (m : MantField) : (significand m).toNat = 2 ^ 17 + m.toNat := by
  rw [significand, BitVec.toNat_append, ← Nat.shiftLeft_add_eq_or_of_lt m.isLt]; rfl

theorem rebiasExp_toNat (e : ExpField) : (rebiasExp e).toNat = e.toNat + 991 := by
  have := e.isLt
  simp only [rebiasExp, Config.rebias, BitVec.toNat_add, BitVec.truncate_eq_setWidth, BitVec.toNat_setWidth,
    BitVec.toNat_ofNat]
  omega

/-- The packed word as a number: each field at its place (R42). -/
theorem packF64_toNat (s : SignBit) (e : ExpField) (m : MantField) :
    (packF64 s e m).toNat = s.toNat * 2 ^ 63 + (e.toNat + 991) * 2 ^ 52 + m.toNat * 2 ^ 35 := by
  have hs := s.isLt
  have he := e.isLt
  have hm := m.isLt
  have happ : (packF64 s e m).toNat =
      ((s.toNat <<< 11 ||| (rebiasExp e).toNat) <<< 17 ||| m.toNat) <<< 35 ||| 0 := by
    rw [packF64, BitVec.toNat_append, BitVec.toNat_append, BitVec.toNat_append]; rfl
  rw [happ, rebiasExp_toNat, ← Nat.shiftLeft_add_eq_or_of_lt (by omega),
    ← Nat.shiftLeft_add_eq_or_of_lt (by omega), ← Nat.shiftLeft_add_eq_or_of_lt (by omega)]
  simp only [Nat.shiftLeft_eq]
  omega

/-- `out_f64` as a number, from the input word as a number. -/
theorem decodeOutputs_outF64_toNat (v : F24) : (decodeOutputs v).outF64.toNat =
    v.toNat / 2 ^ 23 * 2 ^ 63 + (v.toNat / 2 ^ 17 % 2 ^ 6 + 991) * 2 ^ 52 + v.toNat % 2 ^ 17 * 2 ^ 35 := by
  rw [show (decodeOutputs v).outF64 = packF64 (signBit v) (expField v) (mantField v) from rfl, packF64_toNat,
    signBit_toNat, expField_toNat, mantField_toNat]

theorem b64Sign_packF64 (s : SignBit) (e : ExpField) (m : MantField) : b64Sign (packF64 s e m) = s := by
  have := s.isLt; have := e.isLt; have := m.isLt
  apply BitVec.eq_of_toNat_eq
  rw [b64Sign, BitVec.extractLsb'_toNat, packF64_toNat, Nat.shiftRight_eq_div_pow]
  omega

theorem b64Exp_packF64 (s : SignBit) (e : ExpField) (m : MantField) : b64Exp (packF64 s e m) = rebiasExp e := by
  have := s.isLt; have := e.isLt; have := m.isLt
  apply BitVec.eq_of_toNat_eq
  rw [b64Exp, BitVec.extractLsb'_toNat, packF64_toNat, rebiasExp_toNat, Nat.shiftRight_eq_div_pow]
  omega

theorem b64Frac_packF64_toNat (s : SignBit) (e : ExpField) (m : MantField) :
    (b64Frac (packF64 s e m)).toNat = m.toNat * 2 ^ 35 := by
  have := s.isLt; have := e.isLt; have := m.isLt
  rw [b64Frac, BitVec.extractLsb'_toNat, packF64_toNat, Nat.shiftRight_eq_div_pow]
  omega

end Sys2Proof.Machine
end

