-- ==== Sys2Proof/Laws/State.lean ====
section
/-! SUPPORT. One lemma per field per update of `State`, for each operation of Machine/Ops.lean and for the state
after power-up. Later proofs cite these and unfold no record update. -/

namespace Sys2Proof.Machine

/-! ### `setOutputs` -/

@[simp] theorem State.setOutputs_inValue (s : State) (o : DecoderOutputs) :
    (s.setOutputs o).inValue = s.inValue := rfl
@[simp] theorem State.setOutputs_outputs (s : State) (o : DecoderOutputs) : (s.setOutputs o).outputs = o := rfl
@[simp] theorem State.setOutputs_pending (s : State) (o : DecoderOutputs) :
    (s.setOutputs o).pending = s.pending := rfl
@[simp] theorem State.setOutputs_draws (s : State) (o : DecoderOutputs) : (s.setOutputs o).draws = s.draws := rfl

/-! ### `observeUndefined` -/

@[simp] theorem State.observeUndefined_inValue (s : State) : s.observeUndefined.inValue = s.inValue := rfl
@[simp] theorem State.observeUndefined_outputs (s : State) :
    s.observeUndefined.outputs = freeOutputs s.draws := rfl
@[simp] theorem State.observeUndefined_pending (s : State) : s.observeUndefined.pending = s.pending := rfl
@[simp] theorem State.observeUndefined_draws (s : State) : s.observeUndefined.draws = s.draws + 1 := rfl

/-! ### The driver -/

@[simp] theorem State.presenting_inValue (s : State) (v : F24) : (s.presenting v).inValue = s.inValue := rfl
@[simp] theorem State.presenting_outputs (s : State) (v : F24) : (s.presenting v).outputs = s.outputs := rfl
@[simp] theorem State.presenting_pending (s : State) (v : F24) :
    (s.presenting v).pending = InPort.ofWord v :: s.pending := rfl
@[simp] theorem State.presenting_draws (s : State) (v : F24) : (s.presenting v).draws = s.draws := rfl

theorem State.presentingInteger_eq (s : State) (n : Nat) :
    s.presentingInteger n = s.presenting (BitVec.ofNat 24 n) := rfl

@[simp] theorem State.withRun_inValue (s : State) (vs : List F24) : (s.withRun vs).inValue = s.inValue := rfl
@[simp] theorem State.withRun_outputs (s : State) (vs : List F24) : (s.withRun vs).outputs = s.outputs := rfl
@[simp] theorem State.withRun_pending (s : State) (vs : List F24) :
    (s.withRun vs).pending = vs.map InPort.ofWord := rfl
@[simp] theorem State.withRun_draws (s : State) (vs : List F24) : (s.withRun vs).draws = s.draws := rfl

theorem State.withRun_cons (s : State) (v : F24) (vs : List F24) :
    s.withRun (v :: vs) = (s.withRun vs).presenting v := rfl

/-! ### Power-up -/

@[simp] theorem State.reset_inValue : State.reset.inValue = InPort.undriven := rfl
@[simp] theorem State.reset_outputs : State.reset.outputs = freeOutputs 0 := rfl
@[simp] theorem State.reset_pending : State.reset.pending = [] := rfl
@[simp] theorem State.reset_draws : State.reset.draws = 1 := rfl

/-! ### `advance` -/

theorem State.advance_of_nil {s : State} (h : s.pending = []) : s.advance = s := by
  simp [State.advance, h]

theorem State.advance_of_cons {s : State} {p : InPort} {ps : List InPort} (h : s.pending = p :: ps) :
    s.advance = { s with inValue := p, pending := ps } := by
  simp [State.advance, h]

theorem State.advance_presenting (s : State) (v : F24) :
    (s.presenting v).advance = { s with inValue := InPort.ofWord v } := rfl

/-- All that `advance` does. -/
theorem State.advance_eq (s : State) :
    s.advance = { s with inValue := s.pending.headD s.inValue, pending := s.pending.tail } := by
  obtain ⟨i, o, pending, d⟩ := s
  cases pending <;> rfl

@[simp] theorem State.advance_inValue (s : State) : s.advance.inValue = s.pending.headD s.inValue := by
  rw [State.advance_eq]
@[simp] theorem State.advance_pending (s : State) : s.advance.pending = s.pending.tail := by
  rw [State.advance_eq]
@[simp] theorem State.advance_outputs (s : State) : s.advance.outputs = s.outputs := by
  rw [State.advance_eq]
@[simp] theorem State.advance_draws (s : State) : s.advance.draws = s.draws := by
  rw [State.advance_eq]

end Sys2Proof.Machine
end

