-- ==== Sys2Proof/Laws/Step.lean ====
section
/-! SUPPORT. All that `exec` and `step` can do, said once. -/

namespace Sys2Proof.Machine

/-- The one case of `exec`, on the decoding of a word. -/
theorem exec_decodeWord (v : F24) (s : State) :
    exec (decodeWord v) s = .next (s.setOutputs (decodeOutputs v)) := rfl

/-- A step that finds a word on the port. -/
theorem step_of_word {s : State} {v : F24} (h : s.advance.inValue.word? = some v) :
    step s = .next (s.advance.setOutputs (decodeOutputs v)) := by
  rw [step, h]; rfl

/-- A step that finds an undefined bit on the port. -/
theorem step_of_undefined {s : State} (h : s.advance.inValue.word? = none) :
    step s = .next s.advance.observeUndefined := by
  rw [step, h]

/-- The two cases of a step. -/
theorem step_cases (s : State) :
    (∃ v, s.advance.inValue.word? = some v ∧ step s = .next (s.advance.setOutputs (decodeOutputs v))) ∨
    (s.advance.inValue.word? = none ∧ step s = .next s.advance.observeUndefined) := by
  cases h : s.advance.inValue.word? with
  | none => exact .inr ⟨rfl, step_of_undefined h⟩
  | some v => exact .inl ⟨v, rfl, step_of_word h⟩

/-- Every step leaves settled outputs (R77). -/
theorem settled_of_step {s t : State} (h : step s = .next t) : Settled t := by
  intro v hv
  rcases step_cases s with ⟨u, hu, hs⟩ | ⟨hu, hs⟩ <;> rw [hs] at h <;> cases h
  · rw [State.setOutputs_inValue, hu] at hv
    cases hv; rfl
  · rw [State.observeUndefined_inValue, hu] at hv
    cases hv

theorem run_succ_of_step (M : Host.Core) {s t : M.State} (h : M.step s = .next t) (n : Nat) :
    M.run (n + 1) s = M.run n t := by
  simp [Host.Core.run, h]

/-- A run is its first step and then the rest. -/
theorem core_run_succ {s t : State} (h : step s = .next t) (n : Nat) :
    Host.Core.run Sys2Proof.core (n + 1) s = Host.Core.run Sys2Proof.core n t :=
  run_succ_of_step Sys2Proof.core h n

theorem observation_succ {s t : State} (h : step s = .next t) (n : Nat) :
    observation (n + 1) s = t.outputs :: observation n t := by
  rw [observation, h]

end Sys2Proof.Machine
end

