-- ==== Sys2Proof/Tests/Slice0.lean ====
section
/-! SUPPORT. Tests. Every expected word is the spec's (95_test_vectors.md, or the rule named), none the model's.
The second half shows, for each statement that has hypotheses, a state and operands that meet them together. -/

namespace Sys2Proof.Tests

open Sys2Proof Sys2Proof.Machine

/-! ### Well-formedness: one ill-formed term for each check (R46) -/

theorem test_wf_hex_no_digit : (Stimulus.hex []).wf = false := by decide
theorem test_wf_hex_seven_digits : (Stimulus.hex [1, 0, 0, 0, 0, 0, 0]).wf = false := by decide
theorem test_wf_fields_sign : (Stimulus.fields 2 0 0).wf = false := by decide
theorem test_wf_fields_exponent : (Stimulus.fields 0 64 0).wf = false := by decide
theorem test_wf_fields_mantissa : (Stimulus.fields 0 0 0x20000).wf = false := by decide
theorem test_wf_unbiased_sign : (Stimulus.unbiased (-1) 0 0).wf = false := by decide
theorem test_wf_unbiased_exponent : (Stimulus.unbiased 0 32 0).wf = false := by decide
theorem test_wf_unbiased_mantissa : (Stimulus.unbiased 0 0 (-1)).wf = false := by decide
theorem test_wf_instr : (Instr.decode 1#1 63#6 0x1FFFF#17).wf = true := by decide

/-! ### The written forms (2.4) -/

theorem test_forms_accepted :
    (Stimulus.fields 0 31 0x1FFFD).expand = .ok 0x3FFFFD#24 ∧
    (Stimulus.unbiased 0 (-1) 0x1FFFD).expand = .ok 0x3FFFFD#24 ∧
    (Stimulus.unbiased 1 31 0x1FFFF).expand = .ok 0xFFFFFF#24 ∧
    (Stimulus.unbiased 0 (-32) 0).expand = .ok 0x000000#24 ∧
    (Stimulus.hex [15, 15, 15, 15, 15, 15]).expand = .ok 0xFFFFFF#24 := ⟨rfl, rfl, rfl, rfl, rfl⟩

theorem test_forms_refused :
    (Stimulus.unbiased 0 32 0).expand = .error .exponentOutOfRange ∧
    (Stimulus.fields 0 64 0).expand = .error .exponentOutOfRange ∧
    (Stimulus.fields 2 0 0).expand = .error .signOutOfRange ∧
    (Stimulus.fields 0 0 0x20000).expand = .error .mantissaOutOfRange ∧
    (Stimulus.hex [1, 0, 0, 0, 0, 0, 0]).expand = .error .digitCount := ⟨rfl, rfl, rfl, rfl, rfl⟩

/-! ### Decoding: words written out from the layout of R29 -/

theorem test_decode_0x3FFFFD : decodeWord 0b0_011111_11111111111111101#24 = .decode 0#1 31#6 0x1FFFD#17 := by decide
theorem test_decode_0xABCDEF : decodeWord 0b1_010101_11100110111101111#24 = .decode 1#1 21#6 0x1CDEF#17 := by decide
theorem test_encode_0x123456 : encode (.decode 0#1 9#6 0x03456#17) = 0x123456#24 := by decide
theorem test_decode_widest : decode 0xFFFFFF = .ok (.decode 1#1 63#6 0x1FFFF#17) := rfl
theorem test_decode_too_wide : decode 0x1000000 = .error .widerThan24Bits := rfl
theorem test_decodeTableWord : decodeTableWord 24 0x555555 = some (.decode 0#1 42#6 0x15555#17) := by decide

/-! ### DECODE: rows of 2.1, chosen to catch a field moved by a bit, and the single-bit words of 2.2 -/

theorem test_decode_outputs : ∀ r ∈
    [(0x000001#24, (⟨0x3DF0000800000000#64, 0#1, 0#6, 0b100000#6, 0x00001#17, 0x20001#18⟩ : DecoderOutputs)),
     (0x01FFFF#24, ⟨0x3DFFFFF800000000#64, 0#1, 0#6, 0b100000#6, 0x1FFFF#17, 0x3FFFF#18⟩),
     (0x123456#24, ⟨0x3E81A2B000000000#64, 0#1, 9#6, 0b101001#6, 0x03456#17, 0x23456#18⟩),
     (0xABCDEF#24, ⟨0xBF4E6F7800000000#64, 1#1, 21#6, 0b110101#6, 0x1CDEF#17, 0x3CDEF#18⟩),
     (0x555555#24, ⟨0x409AAAA800000000#64, 0#1, 42#6, 0b001010#6, 0x15555#17, 0x35555#18⟩),
     (0xAAAAAA#24, ⟨0xBF45555000000000#64, 1#1, 21#6, 0b110101#6, 0x0AAAA#17, 0x2AAAA#18⟩),
     (0xFFFFFF#24, ⟨0xC1EFFFF800000000#64, 1#1, 63#6, 0b011111#6, 0x1FFFF#17, 0x3FFFF#18⟩)],
    decodeOutputs r.1 = r.2 := by decide

theorem test_single_bits :
    (decodeOutputs 0x000001#24).outF64 = 0x3DF0000800000000#64 ∧
    (decodeOutputs 0x010000#24).outF64 = 0x3DF8000000000000#64 ∧
    (decodeOutputs 0x020000#24).outF64 = 0x3E00000000000000#64 ∧
    (decodeOutputs 0x400000#24).outF64 = 0x3FF0000000000000#64 ∧
    (decodeOutputs 0x800000#24).outF64 = 0xBDF0000000000000#64 := by decide

/-- A value of R41's table that the block does not produce, so that `bin64` is seen to tell the classes apart. -/
theorem test_bin64_classes :
    bin64 0x8000000000000000#64 = .zero true ∧ bin64 0x7FF0000000000000#64 = .infinity false ∧
    bin64 0x7FF8000000000000#64 = .nan ∧ bin64 0x3FF8000000000000#64 = .normal (3 / 2) := by
  refine ⟨rfl, rfl, rfl, ?_⟩
  rw [bin64, if_neg (by decide), if_neg (by decide), signOf, if_neg (by decide),
    show (b64Exp 0x3FF8000000000000#64).toNat = 1023 by decide,
    show (b64Frac 0x3FF8000000000000#64).toNat = 2 ^ 51 by decide]
  norm_num

/-! ### One step -/

/-- The output record after one step. -/
def stepOutputs (s : State) : Option DecoderOutputs :=
  match step s with
  | .next t => some t.outputs
  | .fault _ | .refused _ => none

theorem test_first_step_after_reset :
    stepOutputs (State.reset.withFetchWord 24 0x3FFFFD) =
      some ⟨0x3FEFFFE800000000#64, 0#1, 31#6, 0b111111#6, 0x1FFFD#17, 0x3FFFD#18⟩ := by decide

/-- One undefined bit, the lowest, on an otherwise driven port. -/
def oneBitUndefined : InPort := { pins := (InPort.ofWord 0x3FFFFC#24).pins.set 0 .undefined }

theorem test_undefined_bit_step : stepOutputs { State.reset with pending := [oneBitUndefined] } = some (freeOutputs 1) :=
  rfl

/-! ### Witnesses: for each statement with hypotheses, values that meet them together -/

theorem witness_step_runs_decoded_instruction :
    (State.reset.presenting 0xFFFFFF#24).pending = InPort.ofWord 0xFFFFFF#24 :: [] ∧
    (InPort.ofWord 0xFFFFFF#24).word? = some 0xFFFFFF#24 := ⟨rfl, InPort.word?_ofWord _⟩

/-- A state with nothing left to present and a word on the port. -/
def holding (v : F24) : State := { State.reset with inValue := InPort.ofWord v }

theorem witness_step_runs_held_instruction :
    (holding 0x000000#24).pending = [] ∧ (holding 0x000000#24).inValue.word? = some 0x000000#24 :=
  ⟨rfl, InPort.word?_ofWord _⟩

theorem step_presenting_reset (v : F24) :
    step (State.reset.presenting v) = .next { holding v with outputs := decodeOutputs v } := by
  have hw : (State.reset.presenting v).advance.inValue.word? = some v := by
    rw [State.advance_presenting]; exact InPort.word?_ofWord v
  rw [step_of_word hw, State.advance_presenting]; rfl

theorem step_holding (v : F24) : step (holding v) = .next { holding v with outputs := decodeOutputs v } := by
  have ha : (holding v).advance = holding v := State.advance_of_nil rfl
  rw [step_of_word (v := v) (by rw [ha]; exact InPort.word?_ofWord v), ha]; rfl

theorem witness_outputs_depend_on_input_alone : ∃ t₁ t₂ : State,
    Host.Core.run Sys2Proof.core (0 + 1) (State.reset.presenting 0x3FFFFD#24) = .next t₁ ∧
    Host.Core.run Sys2Proof.core (0 + 1) (holding 0x3FFFFD#24) = .next t₂ ∧
    t₁.inValue.word? = some 0x3FFFFD#24 ∧ t₂.inValue.word? = some 0x3FFFFD#24 :=
  ⟨_, _, core_run_succ (step_presenting_reset _) 0, core_run_succ (step_holding _) 0,
    InPort.word?_ofWord _, InPort.word?_ofWord _⟩

theorem witness_step_takes_one_presentation :
    (∃ t, step (State.reset.presenting 0x000000#24) = .next t ∧ t.inValue.isDefined = true) ∧
    (∃ t, step State.reset = .next t ∧ t.inValue.isDefined = false) :=
  ⟨⟨_, step_presenting_reset _, InPort.isDefined_ofWord _⟩, ⟨_, rfl, InPort.isDefined_undriven⟩⟩

theorem witness_repeated_reading : (holding 0x800000#24).pending = [] ∧
    (holding 0x800000#24).inValue.word? = some 0x800000#24 := ⟨rfl, InPort.word?_ofWord _⟩

theorem witness_undefined_presented :
    ∃ i : Fin 24, (([oneBitUndefined]).headD State.reset.inValue).pins[i] = .undefined := ⟨0, rfl⟩

theorem witness_undefined_held :
    ∃ i : Fin 24, (State.reset.pending.headD State.reset.inValue).pins[i] = .undefined := ⟨23, rfl⟩

theorem witness_port_word : (InPort.ofWord 0xABCDEF#24).word? = some 0xABCDEF#24 ∧
    ∀ i : Fin 24, (InPort.ofWord 0xABCDEF#24).pins[i] = (if (0xABCDEF#24).getLsbD i then Pin.high else Pin.low) := by
  decide

theorem witness_run_invariant : ∃ t, RunInvariant (State.reset.presenting 0x420000#24) ∧
    step (State.reset.presenting 0x420000#24) = .next t ∧ (State.reset.presenting 0x420000#24).pending ≠ [] := by
  refine ⟨_, ⟨?_, ?_⟩, step_presenting_reset _, by decide⟩
  · intro v h
    rw [State.presenting_inValue, State.reset_inValue, InPort.word?_undriven] at h
    cases h
  · intro p h
    rw [State.presenting_pending, State.reset_pending, List.mem_singleton] at h
    rw [h]; exact InPort.isDefined_ofWord _

theorem witness_run_last : [0x41FFFF#24, 0x420000#24].getLast? = some 0x420000#24 := rfl

theorem witness_encode_of_decode : 0xFFFFFF < 2 ^ 24 ∧ (encode (.decode 1#1 63#6 0x1FFFF#17)).toNat = 0xFFFFFF ∧
    2 ^ 24 ≤ 0x1000000 := by decide

theorem witness_written_forms : 1 ≤ 1 ∧ 63 ≤ 63 ∧ 0x1FFFF ≤ 0x1FFFF ∧
    1 ≤ [(15 : Fin 16), 15, 15, 15, 15, 15].length ∧ [(15 : Fin 16), 15, 15, 15, 15, 15].length ≤ 6 := by decide

theorem witness_written_forms_each_way : (Stimulus.unbiased 0 31 0x1FFFF).wf = true ∧
    (Stimulus.unbiased 0 (-33) 0).wf = false := by decide

theorem witness_unbiased_rows : expField 0x000000#24 = 0#6 ∧ expField 0x3E0000#24 = 31#6 ∧
    expField 0x400000#24 = 32#6 ∧ expField 0x7E0000#24 = 63#6 := by decide

theorem witness_rebias_rows : (expField 0x000000#24).toNat = 0 ∧ (expField 0x020000#24).toNat = 1 ∧
    (expField 0x3E0000#24).toNat = 31 ∧ (expField 0x400000#24).toNat = 32 ∧ (expField 0x420000#24).toNat = 33 ∧
    (expField 0x7E0000#24).toNat = 63 := by decide

theorem witness_ports_agree : ∃ t, step (holding 0x555555#24) = .next t ∧ t.inValue.isDefined = true :=
  ⟨_, step_holding _, InPort.isDefined_ofWord _⟩

theorem witness_recovery_range : (0x3DF0000000000000#64).extractLsb' 0 35 = 0#35 ∧
    0x3DF ≤ ((0x3DF0000000000000#64).extractLsb' 52 11).toNat ∧
    ((0xC1EFFFF800000000#64).extractLsb' 52 11).toNat ≤ 0x41E := by decide

theorem witness_value_range : expField 0x800000#24 = 0#6 ∧ mantField 0x800000#24 = 0#17 ∧
    expField 0x7FFFFF#24 = 63#6 ∧ mantField 0x7FFFFF#24 = 131071#17 := by decide

theorem witness_value_monotone : 0x41FFFF#24 ≠ 0x420000#24 ∧
    (0x41FFFF#24).getLsbD 23 = (0x420000#24).getLsbD 23 ∧
    ((0x41FFFF#24).extractLsb' 0 23).toNat < ((0x420000#24).extractLsb' 0 23).toNat := by decide

theorem witness_mantissa_step : (mantField 0x41FFFE#24).toNat < 0x1FFFF := by decide

theorem witness_mantissa_carry : (mantField 0x7DFFFF#24).toNat = 0x1FFFF ∧ (expField 0x7DFFFF#24).toNat < 63 := by
  decide

theorem witness_exponent_step : (expField 0x7DFFFF#24).toNat < 63 := by decide

theorem witness_rounding : ExactOnBinary64 id := fun _ _ _ => rfl

theorem witness_rounding_word : (bin64 0x3FF8000000000000#64).real? = some (3 / 2) := by
  rw [test_bin64_classes.2.2.2]; rfl

end Sys2Proof.Tests
end

