-- ==== Sys2Proof/Proofs/State.lean ====
section
/-! PROOFS. The statements about what a step and a run take and leave (10_state.md R13, R15, R16): a step's effect
on the driver's queue, the port and the counter; every run of at least one step ends with a step; and the value of
every output word, from which no floating-point condition arises. -/

namespace Sys2Proof.Machine

/-! ### One step -/

/-- No step stops (R20, R67, R71). -/
theorem exists_step_eq_next (s : State) : ∃ t, step s = .next t := by
  rcases step_cases s with ⟨v, _, hs⟩ | ⟨_, hs⟩
  · exact ⟨_, hs⟩
  · exact ⟨_, hs⟩

/-- A step that finds the word `v` on the port runs the instruction decoded from it (R44, R77). -/
theorem step_eq_exec_decodeWord {s : State} {v : F24} (h : s.advance.inValue.word? = some v) :
    step s = exec (decodeWord v) s.advance := by
  rw [step_of_word h, exec_decodeWord]

/-- Settling the outputs of a word moves neither queue, nor port, nor counter; settling those of an undefined input
moves the counter alone (R78). -/
theorem step_driver {s t : State} (h : step s = .next t) :
    t.pending = s.advance.pending ∧ t.inValue = s.advance.inValue ∧
      t.draws = if s.advance.inValue.isDefined then s.draws else s.draws + 1 := by
  rcases step_cases s with ⟨v, hv, hs⟩ | ⟨hu, hs⟩ <;> rw [hs] at h <;> cases h
  · have hd : s.advance.inValue.isDefined = true := InPort.exists_word?_iff.mp ⟨v, hv⟩
    rw [if_pos hd]
    exact ⟨rfl, rfl, State.advance_draws s⟩
  · have hd : s.advance.inValue.isDefined = false := InPort.word?_eq_none_iff.mp hu
    rw [hd, if_neg Bool.false_ne_true, State.observeUndefined_draws, State.advance_draws]
    exact ⟨rfl, rfl, rfl⟩

/-! ### Runs -/

/-- A run of at least one step is a run followed by its last step. -/
theorem exists_last_step_of_run {n : Nat} {s t : State} (h : Host.Core.run Sys2Proof.core (n + 1) s = .next t) :
    ∃ u, Host.Core.run Sys2Proof.core n s = .next u ∧ step u = .next t := by
  induction n generalizing s with
  | zero =>
    obtain ⟨u, hu⟩ := exists_step_eq_next s
    rw [core_run_succ hu] at h
    cases h
    exact ⟨s, rfl, hu⟩
  | succ n ih =>
    obtain ⟨u, hu⟩ := exists_step_eq_next s
    rw [core_run_succ hu] at h ⊢
    exact ih h

/-- After a run of at least one step the outputs have settled, whatever they were before (R77, R82). -/
theorem settled_of_run {n : Nat} {s t : State} (h : Host.Core.run Sys2Proof.core (n + 1) s = .next t) :
    Settled t := by
  obtain ⟨u, -, hu⟩ := exists_last_step_of_run h
  exact settled_of_step hu

/-! ### The value of an output word -/

/-- The packed word is normal: its exponent field stays within 991 to 1054 (R43), and `E - 1023` is `e - 32` and
`F / 2^52` is `m / 2^17`. -/
theorem bin64_packF64 (s : SignBit) (e : ExpField) (m : MantField) :
    bin64 (packF64 s e m) =
      .normal (signOf s * (2 : ℚ) ^ (e.toNat - 32 : ℤ) * (1 + m.toNat / 2 ^ 17)) := by
  have he := e.isLt
  have hE := rebiasExp_toNat e
  have hzero : rebiasExp e ≠ 0#11 := fun h => by rw [h, BitVec.toNat_ofNat] at hE; omega
  have hones : rebiasExp e ≠ 2047#11 := fun h => by rw [h, BitVec.toNat_ofNat] at hE; omega
  have hexp : (((e.toNat + 991 : Nat) : ℤ) - 1023) = e.toNat - 32 := by omega
  have hfrac : ((m.toNat * 2 ^ 35 : Nat) : ℚ) / 2 ^ 52 = m.toNat / 2 ^ 17 := by push_cast; ring
  rw [bin64, b64Exp_packF64, if_neg hzero, if_neg hones, b64Sign_packF64, b64Frac_packF64_toNat, hE, hexp, hfrac]

/-- The output word has exactly the value of the input word (R48). -/
theorem bin64_decodeOutputs (v : F24) : bin64 (decodeOutputs v).outF64 = .normal (f24Value v) :=
  bin64_packF64 (signBit v) (expField v) (mantField v)

/-- A conversion that delivers a normal number equal to the exact value raises nothing. -/
theorem conversionConditions_of_normal {q : ℚ} {w : B64} (h : bin64 w = .normal q) :
    conversionConditions q w = FloatConditions.none := by
  simp [conversionConditions, FloatConditions.none, h, Bin64.real?]

/-! ### The statements -/

/-- Settles O3: making the presentation is `advance`, and the step is `exec` of the word then on the port. -/
theorem stepRunsDecodedInstruction : Obligations.StepRunsDecodedInstruction := by
  refine ⟨fun s p ps v hpending hword => ?_, fun s v hpending hword => ?_⟩
  · have hadv := State.advance_of_cons hpending
    rw [← hadv]
    exact step_eq_exec_decodeWord (by rw [hadv]; exact hword)
  · have hadv := State.advance_of_nil hpending
    rw [step_eq_exec_decodeWord (by rw [hadv]; exact hword), hadv]

/-- Settles O7: what `advance` does to queue and port, and what settling then does to the counter. -/
theorem stepTakesOnePresentation : Obligations.StepTakesOnePresentation := by
  intro s t h
  obtain ⟨hpending, hport, hdraws⟩ := step_driver h
  rw [hport, ← State.advance_pending, ← State.advance_inValue]
  exact ⟨hpending, rfl, hdraws⟩

/-- Settles O6: both runs end with settled outputs, which are `DECODE` of the word on the port. -/
theorem outputsDependOnInputAlone : Obligations.OutputsDependOnInputAlone := by
  intro s₁ s₂ t₁ t₂ n₁ n₂ v h₁ h₂ hv₁ hv₂
  calc t₁.outputs = decodeOutputs v := settled_of_run h₁ v hv₁
    _ = t₂.outputs := (settled_of_run h₂ v hv₂).symm

/-- Settles O42: the output is the normal number equal to the exact value. -/
theorem noFloatConditionArises : Obligations.NoFloatConditionArises :=
  fun v => conversionConditions_of_normal (bin64_decodeOutputs v)

end Sys2Proof.Machine
end

