-- ==== Sys2Proof/Proofs/Memory.lean ====
section
/-! PROOFS. The statements about reading the input port (20_memory.md R22, R24): the port holds a word exactly when
its pins are that word's bits, and a word that stays there is read the same any number of times. -/

namespace Sys2Proof.Machine

/-! ### The word on the port -/

theorem Pin.ofBool_eq_ite (b : Bool) : Pin.ofBool b = if b then .high else .low := by cases b <;> rfl

/-- A pin carries the bit `b` only by being driven to it. -/
theorem Pin.bit?_eq_some_iff {q : Pin} {b : Bool} : q.bit? = some b ↔ q = Pin.ofBool b := by
  cases q <;> cases b <;> decide

/-- The pins of a port are the bits of `v` exactly when a driver holds `v` there (R22). -/
theorem InPort.eq_ofWord_iff {p : InPort} {v : F24} :
    p = InPort.ofWord v ↔ ∀ i : Fin 24, p.pins[i] = Pin.ofBool (v.getLsbD i) := by
  constructor
  · rintro rfl i
    exact InPort.getElem_ofWord v i i.isLt
  · intro h
    have hpins : p.pins = (InPort.ofWord v).pins := Vector.ext fun i hi => by
      rw [InPort.getElem_ofWord]
      exact h ⟨i, hi⟩
    cases p
    exact congrArg InPort.mk hpins

/-- The port reads as `v` only where a driver holds `v` there: no two ports read as the same word. -/
theorem InPort.word?_eq_some_iff {p : InPort} {v : F24} : p.word? = some v ↔ p = InPort.ofWord v := by
  constructor
  · intro h
    exact InPort.eq_ofWord_iff.mpr fun i => Pin.bit?_eq_some_iff.mp (InPort.bit?_of_word? h i i.isLt)
  · rintro rfl
    exact InPort.word?_ofWord v

/-! ### A word held on the port -/

/-- With nothing left to present, a step reads the held word and writes its outputs. -/
theorem step_of_held_word {s : State} {v : F24} (hpending : s.pending = []) (hword : s.inValue.word? = some v) :
    step s = .next (s.setOutputs (decodeOutputs v)) := by
  have hadv := State.advance_of_nil hpending
  rw [step_of_word (by rw [hadv]; exact hword), hadv]

/-- Every run of at least one step ends where its first step does: the word is still held there, and its outputs are
written over themselves (R24). -/
theorem run_of_held_word {s : State} {v : F24} (hpending : s.pending = []) (hword : s.inValue.word? = some v)
    (n : Nat) : Host.Core.run Sys2Proof.core (n + 1) s = .next (s.setOutputs (decodeOutputs v)) := by
  induction n generalizing s with
  | zero => exact core_run_succ (step_of_held_word hpending hword) 0
  | succ n ih =>
    rw [core_run_succ (step_of_held_word hpending hword)]
    exact ih (s := s.setOutputs (decodeOutputs v)) hpending hword

/-! ### The statements -/

/-- Settles O8: the first reading and every later one give the state with the outputs of `v`. -/
theorem repeatedReadingIsStable : Obligations.RepeatedReadingIsStable :=
  fun s v n hpending hword =>
    ⟨s.setOutputs (decodeOutputs v), step_of_held_word hpending hword, rfl, run_of_held_word hpending hword n⟩

/-- Settles O10: both sides say that the port is the one a driver of `v` leaves. -/
theorem portWordIsItsPins : Obligations.PortWordIsItsPins := by
  intro p v
  simp only [← Pin.ofBool_eq_ite]
  exact InPort.word?_eq_some_iff.trans InPort.eq_ofWord_iff

end Sys2Proof.Machine
end

