-- ==== Sys2Proof/Proofs/Encoding.lean ====
section
/-! PROOFS. The statements about the formats and the values (30_encoding.md): encoder and decoder are inverse to each
other (R29, R30, R44), the written forms (R46), the fields of the outputs (R34, R35, R42, R43), and the value of a word
(R36 to R38), which is its sign times a positive natural number of units of 2^-49. -/

namespace Sys2Proof.Machine

/-! ### Encoder and decoder -/

theorem encode_toNat (s : SignBit) (e : ExpField) (m : MantField) :
    (encode (.decode s e m)).toNat = s.toNat * 2 ^ 23 + e.toNat * 2 ^ 17 + m.toNat :=
  Laws.EncodeFields.decode s e m

@[simp] theorem decodeWord_encode (i : Instr) : decodeWord (encode i) = i := by
  obtain ⟨s, e, m⟩ := i
  have := s.isLt; have := e.isLt; have := m.isLt
  have henc := encode_toNat s e m
  have hs : signBit (encode (.decode s e m)) = s := BitVec.eq_of_toNat_eq (by rw [signBit_toNat, henc]; omega)
  have he : expField (encode (.decode s e m)) = e := BitVec.eq_of_toNat_eq (by rw [expField_toNat, henc]; omega)
  have hm : mantField (encode (.decode s e m)) = m := BitVec.eq_of_toNat_eq (by rw [mantField_toNat, henc]; omega)
  rw [decodeWord, hs, he, hm]

/-- A word is its fields at their places (R29). -/
theorem toNat_eq_fields (v : F24) :
    v.toNat = (signBit v).toNat * 2 ^ 23 + (expField v).toNat * 2 ^ 17 + (mantField v).toNat := by
  rw [signBit_toNat, expField_toNat, mantField_toNat]
  omega

@[simp] theorem encode_decodeWord (v : F24) : encode (decodeWord v) = v :=
  BitVec.eq_of_toNat_eq ((encode_toNat _ _ _).trans (toNat_eq_fields v).symm)

@[simp] theorem decode_toNat (v : F24) : decode v.toNat = .ok (decodeWord v) := by
  rw [decode, if_pos v.isLt, BitVec.ofNat_toNat, BitVec.setWidth_eq]

@[simp] theorem decodeTableWord_toNat (v : F24) : decodeTableWord 24 v.toNat = some (decodeWord v) := by
  rw [decodeTableWord, Nat.mod_eq_of_lt v.isLt, decode_toNat]

theorem decode_of_le {n : Nat} (h : 2 ^ 24 ≤ n) : decode n = .error .widerThan24Bits :=
  if_neg (Nat.not_lt.mpr h)

/-! ### Presenting a word -/

/-- Presenting a word puts it on the port and its `DECODE` on the outputs (R77). -/
theorem step_presenting (s : State) (v : F24) :
    step (s.presenting v) = .next { s with inValue := InPort.ofWord v, outputs := decodeOutputs v } := by
  have hadv := State.advance_presenting s v
  rw [step_of_word (v := v) (by rw [hadv]; exact InPort.word?_ofWord v), hadv]
  rfl

/-! ### The written forms -/

/-- `DECODE.U` is in range exactly when the `DECODE.F` it stands for is. -/
theorem Stimulus.wf_unbiased (s u m : Int) : (Stimulus.unbiased s u m).wf = (Stimulus.fields s (u + 32) m).wf := by
  simp only [Stimulus.wf, decide_eq_decide]
  omega

theorem expandFields_of_wf {s e m : Int} (h : (Stimulus.fields s e m).wf = true) :
    expandFields s e m = .ok (encode (.decode (BitVec.ofInt 1 s) (BitVec.ofInt 6 e) (BitVec.ofInt 17 m))) := by
  obtain ⟨hs, he, hm⟩ := of_decide_eq_true h
  rw [expandFields, if_neg (by omega), if_neg (by omega), if_neg (by omega)]

theorem expandFields_of_not_wf {s e m : Int} (h : (Stimulus.fields s e m).wf = false) :
    ∃ err, expandFields s e m = .error err := by
  have hrange := of_decide_eq_false h
  by_cases hs : s < 0 ∨ 1 < s
  · exact ⟨_, if_pos hs⟩
  by_cases he : e < 0 ∨ 63 < e
  · exact ⟨_, by rw [expandFields, if_neg hs, if_pos he]⟩
  have hm : m < 0 ∨ 0x1FFFF < m := by omega
  exact ⟨_, by rw [expandFields, if_neg hs, if_neg he, if_pos hm]⟩

theorem expand_hex_of_wf {digits : List (Fin 16)} (h : (Stimulus.hex digits).wf = true) :
    (Stimulus.hex digits).expand = .ok (BitVec.ofNat 24 (hexValue digits)) := by
  have hlen := of_decide_eq_true h
  exact if_neg (by omega)

theorem exists_expand_eq_ok {f : Stimulus} (h : f.wf = true) : ∃ v, f.expand = .ok v := by
  cases f with
  | hex digits => exact ⟨_, expand_hex_of_wf h⟩
  | fields s e m => exact ⟨_, expandFields_of_wf h⟩
  | unbiased s u m => exact ⟨_, expandFields_of_wf (Stimulus.wf_unbiased s u m ▸ h)⟩

theorem exists_expand_eq_error {f : Stimulus} (h : f.wf = false) : ∃ err, f.expand = .error err := by
  cases f with
  | hex digits =>
    have hlen := of_decide_eq_false h
    exact ⟨_, if_pos (by omega)⟩
  | fields s e m => exact expandFields_of_not_wf h
  | unbiased s u m => exact expandFields_of_not_wf (Stimulus.wf_unbiased s u m ▸ h)

/-- Reading digits from the most significant one on is the positional value of their reversal. -/
theorem hexValue_eq_ofDigits (digits : List (Fin 16)) :
    hexValue digits = Nat.ofDigits 16 (digits.reverse.map Fin.val) := by
  rw [hexValue, ← List.foldr_reverse, Nat.ofDigits_eq_foldr, List.foldr_map]
  simp only [Nat.cast_id, Nat.add_comm]

/-- Six digits fit the port. -/
theorem hexValue_lt {digits : List (Fin 16)} (h : digits.length ≤ 6) : hexValue digits < 2 ^ 24 := by
  have hdigit : ∀ d ∈ digits.reverse.map Fin.val, d < 16 := by
    intro d hd
    obtain ⟨x, -, rfl⟩ := List.mem_map.mp hd
    exact x.isLt
  calc hexValue digits = Nat.ofDigits 16 (digits.reverse.map Fin.val) := hexValue_eq_ofDigits digits
    _ < 16 ^ (digits.reverse.map Fin.val).length := Nat.ofDigits_lt_base_pow_length (by decide) hdigit
    _ = 16 ^ digits.length := by rw [List.length_map, List.length_reverse]
    _ ≤ 16 ^ 6 := Nat.pow_le_pow_right (by decide) h

/-- R46's number of a word written by its fields. -/
theorem encode_ofNat_toNat {s e m : Nat} (hs : s ≤ 1) (he : e ≤ 63) (hm : m ≤ 0x1FFFF) :
    (encode (.decode (BitVec.ofNat 1 s) (BitVec.ofNat 6 e) (BitVec.ofNat 17 m))).toNat =
      (s <<< 23) ||| (e <<< 17) ||| m := by
  have hlow : e <<< 17 ||| m = (e <<< 17) + m := (Nat.shiftLeft_add_eq_or_of_lt (by omega) e).symm
  have hsum : (e <<< 17) + m < 2 ^ 23 := by rw [Nat.shiftLeft_eq]; omega
  rw [encode_toNat, Nat.lor_assoc, hlow, ← Nat.shiftLeft_add_eq_or_of_lt hsum]
  simp only [BitVec.toNat_ofNat, Nat.shiftLeft_eq]
  omega

/-! ### The output fields -/

theorem unbias_eq_add (e : ExpField) : unbias e = e + 32#6 := by revert e; decide

theorem expUnbiasedO_toInt (v : F24) :
    (decodeOutputs v).expUnbiasedO.toInt = ((expField v).toNat : Int) - 32 := unbias_toInt (expField v)

theorem significandO_toNat (v : F24) :
    (decodeOutputs v).significandO.toNat = 2 ^ 17 + (mantField v).toNat := significand_toNat (mantField v)

/-- A field of a field is a field of the word. -/
theorem extractLsb'_extractLsb' {w start len i k : Nat} (x : BitVec w) (h : i + k ≤ len) :
    (x.extractLsb' start len).extractLsb' i k = x.extractLsb' (start + i) k := by
  ext j hj
  have hlt : i + j < len := by omega
  simp [hlt, Nat.add_assoc]

/-- The bits of the unbiased exponent, taken from the word itself (R34). -/
theorem unbias_expField (v : F24) : unbias (expField v) = ~~~(v.extractLsb' 22 1) ++ v.extractLsb' 17 5 := by
  rw [unbias, expField, extractLsb'_extractLsb' v (by decide), extractLsb'_extractLsb' v (by decide)]

theorem b64Exp_outF64 (v : F24) : b64Exp (decodeOutputs v).outF64 = rebiasExp (expField v) := b64Exp_packF64 _ _ _

theorem b64Exp_outF64_toNat (v : F24) : (b64Exp (decodeOutputs v).outF64).toNat = (expField v).toNat + 991 := by
  rw [b64Exp_outF64, rebiasExp_toNat]

theorem packF64_mant (s : SignBit) (e : ExpField) (m : MantField) : (packF64 s e m).extractLsb' 35 17 = m := by
  have := s.isLt; have := e.isLt; have := m.isLt
  apply BitVec.eq_of_toNat_eq
  rw [BitVec.extractLsb'_toNat, packF64_toNat, Nat.shiftRight_eq_div_pow]
  omega

theorem packF64_padding (s : SignBit) (e : ExpField) (m : MantField) : (packF64 s e m).extractLsb' 0 35 = 0#35 := by
  apply BitVec.eq_of_toNat_eq
  rw [BitVec.extractLsb'_toNat, packF64_toNat, Nat.shiftRight_eq_div_pow, BitVec.toNat_ofNat]
  omega

/-! ### The value of a word -/

/-- The magnitude of a word's value, counted in units of 2^-49. -/
def valueUnits (v : F24) : Nat := (2 ^ 17 + (mantField v).toNat) * 2 ^ (expField v).toNat

@[simp] theorem abs_signOf (s : SignBit) : |signOf s| = 1 := by
  rw [signOf]
  split <;> simp

theorem signOf_not (s : SignBit) : signOf (~~~s) = -signOf s := by revert s; decide

/-- R36, second line. -/
theorem f24Value_eq_significand (v : F24) : f24Value v =
    signOf (signBit v) * (2 ^ 17 + (mantField v).toNat) * (2 : ℚ) ^ ((expField v).toNat - 49 : ℤ) := by
  have hexp : ((expField v).toNat - 32 : ℤ) = (expField v).toNat - 49 + (17 : Nat) := by push_cast; ring
  rw [f24Value, hexp, zpow_add₀ two_ne_zero, zpow_natCast]
  field_simp

theorem f24Value_eq_units (v : F24) : f24Value v = signOf (signBit v) * (valueUnits v / 2 ^ 49) := by
  rw [f24Value_eq_significand, zpow_sub₀ two_ne_zero, zpow_natCast, zpow_ofNat, valueUnits]
  push_cast
  ring

theorem abs_f24Value (v : F24) : |f24Value v| = valueUnits v / 2 ^ 49 := by
  rw [f24Value_eq_units, abs_mul, abs_signOf, one_mul, abs_of_nonneg (by positivity)]

theorem le_valueUnits (v : F24) : 2 ^ 17 ≤ valueUnits v :=
  calc 2 ^ 17 ≤ 2 ^ 17 + (mantField v).toNat := Nat.le_add_right _ _
    _ ≤ valueUnits v := Nat.le_mul_of_pos_right _ (Nat.two_pow_pos _)

theorem valueUnits_pos (v : F24) : 0 < valueUnits v := lt_of_lt_of_le (by decide) (le_valueUnits v)

theorem valueUnits_le (v : F24) : valueUnits v ≤ 0x3FFFF * 2 ^ 63 := by
  have hm := (mantField v).isLt
  have he := (expField v).isLt
  exact Nat.mul_le_mul (by omega) (Nat.pow_le_pow_right (by decide) (by omega))

/-- The value is negative exactly when the sign bit is 1. -/
theorem f24Value_neg_iff (v : F24) : f24Value v < 0 ↔ signBit v = 1#1 := by
  have hpos : (0 : ℚ) < valueUnits v / 2 ^ 49 := div_pos (Nat.cast_pos.mpr (valueUnits_pos v)) (by positivity)
  rw [f24Value_eq_units, signOf]
  split
  · next hs =>
    rw [iff_true_right hs]
    linarith
  · next hs =>
    rw [iff_false_right hs]
    linarith

/-- R38: within one exponent the mantissa decides; across exponents `m < 2^17` keeps the units of the smaller below
`2^18 * 2^e`, which is where the next exponent begins. -/
theorem valueUnits_lt_of_lt {v w : F24} (h : v.toNat % 2 ^ 23 < w.toNat % 2 ^ 23) : valueUnits v < valueUnits w := by
  have hv := toNat_eq_fields v
  have hw := toNat_eq_fields w
  have hmv := (mantField v).isLt
  have hmw := (mantField w).isLt
  have hev := (expField v).isLt
  have hew := (expField w).isLt
  rcases Nat.lt_trichotomy (expField v).toNat (expField w).toNat with hlt | heq | hgt
  · calc valueUnits v < 2 ^ 18 * 2 ^ (expField v).toNat :=
          Nat.mul_lt_mul_of_pos_right (by omega) (Nat.two_pow_pos _)
      _ = 2 ^ 17 * 2 ^ ((expField v).toNat + 1) := by ring
      _ ≤ valueUnits w := Nat.mul_le_mul (Nat.le_add_right _ _) (Nat.pow_le_pow_right (by decide) hlt)
  · rw [valueUnits, valueUnits, heq]
    exact Nat.mul_lt_mul_of_pos_right (by omega) (Nat.two_pow_pos _)
  · omega

theorem abs_f24Value_lt_of_lt {v w : F24} (h : v.toNat % 2 ^ 23 < w.toNat % 2 ^ 23) : |f24Value v| < |f24Value w| := by
  rw [abs_f24Value, abs_f24Value]
  have : (valueUnits v : ℚ) < valueUnits w := Nat.cast_lt.mpr (valueUnits_lt_of_lt h)
  gcongr

/-- R38: the sign of the value gives bit 23, and its magnitude the other bits. -/
theorem f24Value_injective : Function.Injective f24Value := by
  intro v w h
  have hsign : signBit v = 1#1 ↔ signBit w = 1#1 := by rw [← f24Value_neg_iff, h, f24Value_neg_iff]
  have hbit : v.toNat / 2 ^ 23 = w.toNat / 2 ^ 23 := by
    have := v.isLt; have := w.isLt
    simp only [← BitVec.toNat_inj, signBit_toNat, BitVec.toNat_ofNat] at hsign
    omega
  have habs : |f24Value v| = |f24Value w| := congrArg _ h
  have hle : ¬ v.toNat % 2 ^ 23 < w.toNat % 2 ^ 23 := fun hlt => (abs_f24Value_lt_of_lt hlt).ne habs
  have hge : ¬ w.toNat % 2 ^ 23 < v.toNat % 2 ^ 23 := fun hlt => (abs_f24Value_lt_of_lt hlt).ne habs.symm
  exact BitVec.eq_of_toNat_eq (by omega)

/-! ### Flipping the sign bit -/

theorem signBit_xor_signMask (v : F24) : signBit (v ^^^ 0x800000#24) = ~~~signBit v := by
  rw [signBit, BitVec.extractLsb'_xor, show (0x800000#24).extractLsb' 23 1 = BitVec.allOnes 1 by decide,
    BitVec.xor_allOnes, signBit]

theorem expField_xor_signMask (v : F24) : expField (v ^^^ 0x800000#24) = expField v := by
  rw [expField, BitVec.extractLsb'_xor, show (0x800000#24).extractLsb' 17 6 = 0#6 by decide, BitVec.xor_zero, expField]

theorem mantField_xor_signMask (v : F24) : mantField (v ^^^ 0x800000#24) = mantField v := by
  rw [mantField, BitVec.extractLsb'_xor, show (0x800000#24).extractLsb' 0 17 = 0#17 by decide, BitVec.xor_zero,
    mantField]

theorem f24Value_xor_signMask (v : F24) : f24Value (v ^^^ 0x800000#24) = -f24Value v := by
  rw [f24Value, signBit_xor_signMask, expField_xor_signMask, mantField_xor_signMask, signOf_not, f24Value]
  ring

/-! ### The statements -/

/-- Settles O17: both decoders decode the word of `i`, and the fields of that word are those of `i`. -/
theorem decodeOfEncode : Obligations.DecodeOfEncode := by
  intro i
  refine ⟨by cases i; rfl, ?_, ?_⟩
  · rw [decode_toNat, decodeWord_encode]
  · rw [decodeTableWord_toNat, decodeWord_encode]

/-- Settles O16: the word is `n` cut to 24 bits. -/
theorem presentedIntegerIsMasked : Obligations.PresentedIntegerIsMasked := by
  intro s n
  refine ⟨BitVec.ofNat 24 n, BitVec.toNat_ofNat n 24, fun i hi => ?_, ?_⟩
  · rw [BitVec.getLsbD_ofNat, decide_eq_true hi, Bool.true_and]
  · rw [State.presentingInteger_eq, step_presenting]

/-- Settles O18: below 2^24 the integer is a word, decoder and encoder are inverse to each other on it, and from 2^24 up
the decoder refuses. -/
theorem encodeOfDecode : Obligations.EncodeOfDecode := by
  refine fun n => ⟨fun h => ?_, decode_of_le⟩
  obtain ⟨v, rfl⟩ : ∃ v : F24, v.toNat = n := ⟨BitVec.ofNatLT n h, BitVec.toNat_ofNatLT _ _⟩
  refine ⟨decodeWord v, decode_toNat v, by rw [encode_decodeWord], fun j hj => ?_⟩
  rw [← BitVec.eq_of_toNat_eq hj, decodeWord_encode]

/-- Settles O21, form by form. -/
theorem writtenFormsExpand : Obligations.WrittenFormsExpand := by
  refine ⟨fun s e m hs he hm => ?_, fun s u m => rfl, fun digits hpos hlen => ?_⟩
  · have hwf : (Stimulus.fields s e m).wf = true := decide_eq_true (by omega)
    refine ⟨_, encode_ofNat_toNat hs he hm, ?_, rfl⟩
    rw [Stimulus.expand, expandFields_of_wf hwf]
    simp only [BitVec.ofInt_natCast]
  · refine ⟨BitVec.ofNat 24 (hexValue digits), ?_, expand_hex_of_wf (decide_eq_true ⟨hpos, hlen⟩)⟩
    rw [BitVec.toNat_ofNat, Nat.mod_eq_of_lt (hexValue_lt hlen), hexValue_eq_ofDigits]

/-- Settles O22: a well-formed form presents a word and an ill-formed one is refused, and no form does both. -/
theorem writtenFormsAcceptedIffWellFormed : Obligations.WrittenFormsAcceptedIffWellFormed := by
  intro f
  cases hwf : f.wf with
  | true =>
    obtain ⟨v, hv⟩ := exists_expand_eq_ok hwf
    simp [hv]
  | false =>
    obtain ⟨err, herr⟩ := exists_expand_eq_error hwf
    simp [herr]

/-- Settles O23: the port is `unbias` of the exponent field. -/
theorem unbiasedExponentIsExact : Obligations.UnbiasedExponentIsExact := by
  intro v
  have hint := expUnbiasedO_toInt v
  have he := (expField v).isLt
  have hrows : ∀ r ∈ [(0#6, 0b100000#6), (31#6, 0b111111#6), (32#6, 0b000000#6), (63#6, 0b011111#6)],
      unbias r.1 = r.2 := by simp [unbias]
  exact ⟨unbias_expField v, unbias_eq_add _, hint, by omega, by omega,
    fun r hr hfield => (congrArg unbias hfield).trans (hrows r hr)⟩

/-- Settles O24: the port is `2^17 + m` with `m` at most `2^17 - 1`. -/
theorem significandHasLeadingOne : Obligations.SignificandHasLeadingOne := by
  intro v
  have hnat := significandO_toNat v
  have hm : ((mantField v).toNat : ℚ) ≤ 2 ^ 17 - 1 := by
    have : (mantField v).toNat + 1 ≤ 2 ^ 17 := (mantField v).isLt
    rw [le_sub_iff_add_le]
    exact_mod_cast this
  have hvalue : ((decodeOutputs v).significandO.toNat : ℚ) / 2 ^ 17 = 1 + (mantField v).toNat / 2 ^ 17 := by
    rw [hnat]
    push_cast
    ring
  refine ⟨rfl, hnat, hvalue, ?_, ?_⟩
  · rw [hvalue]
    exact le_add_of_nonneg_right (by positivity)
  · rw [hvalue]
    linarith

/-- Settles O25: the fields of the packed word, one by one; `E` is `e + 991` and the unbiased exponent `e - 32`. -/
theorem outputFieldsArePlaced : Obligations.OutputFieldsArePlaced := by
  intro v
  have hexp : ((b64Exp (decodeOutputs v).outF64).toNat : Int) = (decodeOutputs v).expUnbiasedO.toInt + 1023 := by
    rw [b64Exp_outF64_toNat, expUnbiasedO_toInt]
    omega
  exact ⟨b64Sign_packF64 _ _ _, b64Exp_outF64 v, packF64_mant _ _ _, packF64_padding _ _ _, rfl, hexp⟩

/-- Settles O26: `E` is `e + 991` with `e` at most 63, and the output is the normal number of the word's value. -/
theorem exponentAdderNeverWraps : Obligations.ExponentAdderNeverWraps := by
  intro v
  have he := (expField v).isLt
  have hexp := b64Exp_outF64_toNat v
  have hint := expUnbiasedO_toInt v
  have hrows : ∀ r ∈ [((0 : Nat), (-32 : Int), (991 : Nat)), (1, -31, 992), (31, -1, 1022), (32, 0, 1023),
      (33, 1, 1024), (63, 31, 1054)], r.2.1 = (r.1 : Int) - 32 ∧ r.2.2 = r.1 + 991 := by decide
  refine ⟨hexp, by omega, by omega, ⟨_, bin64_decodeOutputs v⟩, fun r hr hfield => ?_⟩
  obtain ⟨hunbiased, hrebiased⟩ := hrows r hr
  rw [hint, hexp, hfield, hunbiased, hrebiased]
  exact ⟨rfl, rfl⟩

/-- Settles O31: the first line is the definition, and 17 of the exponent's twos make the significand an integer. -/
theorem valueHasIntegerSignificand : Obligations.ValueHasIntegerSignificand :=
  fun v => ⟨rfl, f24Value_eq_significand v⟩

/-- Settles O32: range, ends, nonzero and the multiple of 2^-49 are facts about the units; the symmetry is one about
the sign bit. -/
theorem valueRange : Obligations.ValueRange := by
  refine ⟨fun v => ⟨?_, ?_, ?_, ?_, f24Value_xor_signMask v⟩, fun v he hm => ?_, fun v he hm => ?_⟩
  · have hunits : (2 ^ 17 : ℚ) ≤ valueUnits v := mod_cast le_valueUnits v
    rw [abs_f24Value, le_div_iff₀ (by positivity)]
    linarith
  · have hunits : (valueUnits v : ℚ) ≤ 0x3FFFF * 2 ^ 63 := mod_cast valueUnits_le v
    rw [abs_f24Value, div_le_iff₀ (by positivity)]
    linarith
  · have hpos := valueUnits_pos v
    rw [← abs_pos, abs_f24Value]
    positivity
  · rw [f24Value_eq_units, signOf]
    split
    · exact ⟨-valueUnits v, by push_cast; ring⟩
    · exact ⟨valueUnits v, by push_cast; ring⟩
  · rw [abs_f24Value, valueUnits, he, hm]
    norm_num
  · rw [abs_f24Value, valueUnits, he, hm]
    norm_num

/-- Settles O33: `v[22:0]` orders the units. -/
theorem valueIsInjectiveAndMonotone : Obligations.ValueIsInjectiveAndMonotone := by
  refine ⟨fun v w hne => f24Value_injective.ne hne, fun v w _ hlt => ?_⟩
  simp only [BitVec.extractLsb'_toNat, Nat.shiftRight_zero] at hlt
  exact abs_f24Value_lt_of_lt hlt

/-- Settles O19: there is one constructor, and the fields of R31 to R33 are those bits. -/
theorem everyWordSelectsDecode : Obligations.EveryWordSelectsDecode :=
  ⟨fun ⟨s, e, m⟩ => ⟨s, e, m, rfl⟩, fun _ => ⟨BitVec.and_zero, rfl⟩⟩

/-- Settles O20: four closed words, evaluated. -/
theorem writtenWordsDecode : Obligations.WrittenWordsDecode := by
  unfold Obligations.WrittenWordsDecode
  decide

end Sys2Proof.Machine
end

