-- ==== Sys2Proof/Proofs/Decode.lean ====
section
/-! PROOFS. The statements about `DECODE` (40_decode.md): the six ports and that nothing else is written (R47, R59), the
laws between the ports and back to the input (R52, R64, R65), the value of every output (R48, R53 to R58), and that this
value is the value of one binary64 word only, so that a rounded evaluation must end there (R50). -/

namespace Sys2Proof.Machine

/-! ### The ports of one word -/

theorem outF64_eq (v : F24) : (decodeOutputs v).outF64 = packF64 (signBit v) (expField v) (mantField v) := rfl

theorem unbias_eq_sub (e : ExpField) : unbias e = e - 32#6 := by revert e; decide

/-- Adding 2^17 to a 17-bit word sets the bit above it (R35). -/
theorem significand_eq_add (m : MantField) : significand m = m.zeroExtend 18 + 0x20000#18 := by
  have := m.isLt
  have hext : (m.zeroExtend 18).toNat = m.toNat := BitVec.toNat_setWidth_of_le (by decide)
  have htop : (0x20000#18).toNat = 2 ^ 17 := rfl
  apply BitVec.eq_of_toNat_eq
  rw [significand_toNat, BitVec.toNat_add, hext, htop, Nat.mod_eq_of_lt (by omega), Nat.add_comm]

/-- `E` is the unbiased exponent plus binary64's own bias (R64). -/
theorem rebiasExp_eq_unbias_add (e : ExpField) : rebiasExp e = (unbias e).signExtend 11 + 0x3FF#11 := by
  revert e; decide

/-- A step that leaves a defined input leaves `DECODE` of it on the outputs (R77). -/
theorem exists_outputs_eq_of_step {s t : State} (h : step s = .next t) (hdef : t.inValue.isDefined = true) :
    ∃ v, t.outputs = decodeOutputs v := by
  obtain ⟨v, hv⟩ := InPort.exists_word?_iff.mpr hdef
  exact ⟨v, settled_of_step h v hv⟩

/-! ### The bits of the output -/

/-- Bit 23 of the word, as the sign field (R31). -/
theorem signBit_eq_one_iff (v : F24) : signBit v = 1#1 ↔ v.getLsbD 23 = true := by
  have hbit : (signBit v).getLsbD 0 = v.getLsbD 23 := by simp [signBit]
  rw [← hbit]
  generalize signBit v = s
  revert s; decide

theorem signOf_signBit (v : F24) : signOf (signBit v) = if v.getLsbD 23 then -1 else 1 := by
  simp only [signOf, signBit_eq_one_iff]

theorem outF64_getLsbD_sign (v : F24) : (decodeOutputs v).outF64.getLsbD 63 = v.getLsbD 23 := by
  rw [outF64_eq, packF64, BitVec.getLsbD_append, BitVec.getLsbD_append, BitVec.getLsbD_append]
  simp [signBit]

theorem outF64_getLsbD_mant (v : F24) {i : Nat} (hi : i < 17) :
    (decodeOutputs v).outF64.getLsbD (35 + i) = v.getLsbD i := by
  rw [outF64_eq, packF64, BitVec.getLsbD_append, BitVec.getLsbD_append]
  simp [mantField, hi]

/-- Bits flipped in the sign and the mantissa come out flipped at their places, and no other bit does: they do not go
through the exponent's adder. -/
theorem outF64_xor {v x : F24} (hexp : expField x = 0#6) :
    (decodeOutputs (v ^^^ x)).outF64 =
      (decodeOutputs v).outF64 ^^^ (signBit x ++ 0#11 ++ mantField x ++ 0#35) := by
  have hs : signBit (v ^^^ x) = signBit v ^^^ signBit x := BitVec.extractLsb'_xor
  have hm : mantField (v ^^^ x) = mantField v ^^^ mantField x := BitVec.extractLsb'_xor
  have he : expField (v ^^^ x) = expField v :=
    calc expField (v ^^^ x) = expField v ^^^ expField x := BitVec.extractLsb'_xor
      _ = expField v := by rw [hexp, BitVec.xor_zero]
  rw [outF64_eq, hs, he, hm, outF64_eq, packF64, packF64, BitVec.xor_append, BitVec.xor_append, BitVec.xor_append,
    BitVec.xor_zero, BitVec.xor_zero]

theorem outF64_xor_signMask (v : F24) :
    (decodeOutputs (v ^^^ 0x800000#24)).outF64 = (decodeOutputs v).outF64 ^^^ 0x8000000000000000#64 :=
  outF64_xor (by decide)

theorem outF64_xor_twoPow (v : F24) {i : Nat} (hi : i < 17) :
    (decodeOutputs (v ^^^ BitVec.twoPow 24 i)).outF64 = (decodeOutputs v).outF64 ^^^ BitVec.twoPow 64 (35 + i) := by
  have hplace : ∀ i < 17, expField (BitVec.twoPow 24 i) = 0#6 ∧
      signBit (BitVec.twoPow 24 i) ++ 0#11 ++ mantField (BitVec.twoPow 24 i) ++ 0#35 = BitVec.twoPow 64 (35 + i) := by
    decide
  obtain ⟨hexp, hmask⟩ := hplace i hi
  rw [outF64_xor hexp, hmask]

/-! ### Back from the output to the input -/

/-- The 24-bit word that R65 reads off a binary64 word. -/
def recoverInput (w : B64) : F24 :=
  w.extractLsb' 63 1 ++ (w.extractLsb' 52 11 - 0x3DF#11).extractLsb' 0 6 ++ w.extractLsb' 35 17

theorem rebiasExp_sub (e : ExpField) : (rebiasExp e - 0x3DF#11).extractLsb' 0 6 = e := by revert e; decide

theorem recoverInput_packF64 (s : SignBit) (e : ExpField) (m : MantField) :
    recoverInput (packF64 s e m) = s ++ e ++ m := by
  have hs : (packF64 s e m).extractLsb' 63 1 = s := b64Sign_packF64 s e m
  have hexp : (packF64 s e m).extractLsb' 52 11 = rebiasExp e := b64Exp_packF64 s e m
  rw [recoverInput, hs, hexp, rebiasExp_sub, packF64_mant]

theorem recoverInput_outF64 (v : F24) : recoverInput (decodeOutputs v).outF64 = v :=
  calc recoverInput (decodeOutputs v).outF64 = encode (decodeWord v) := recoverInput_packF64 _ _ _
    _ = v := encode_decodeWord v

theorem outF64_injective : Function.Injective fun v : F24 => (decodeOutputs v).outF64 :=
  Function.LeftInverse.injective recoverInput_outF64

/-- The words R65 counts: zeros below the mantissa, and an exponent the adder can give. -/
def IsOutputWord (w : B64) : Prop :=
  w.extractLsb' 0 35 = 0#35 ∧ 0x3DF ≤ (w.extractLsb' 52 11).toNat ∧ (w.extractLsb' 52 11).toNat ≤ 0x41E

theorem isOutputWord_outF64 (v : F24) : IsOutputWord (decodeOutputs v).outF64 := by
  have he := (expField v).isLt
  have hexp : ((decodeOutputs v).outF64.extractLsb' 52 11).toNat = (expField v).toNat + 991 := b64Exp_outF64_toNat v
  exact ⟨packF64_padding _ _ _, by omega, by omega⟩

theorem outF64_encode (s : SignBit) (e : ExpField) (m : MantField) :
    (decodeOutputs (encode (.decode s e m))).outF64 = packF64 s e m := by
  have hfields := decodeWord_encode (.decode s e m)
  simp only [decodeWord, Instr.decode.injEq] at hfields
  obtain ⟨hs, he, hm⟩ := hfields
  rw [outF64_eq, hs, he, hm]

/-- Such a word is the output of the input read off it: subtracting 0x3DF loses nothing. -/
theorem outF64_recoverInput {w : B64} (h : IsOutputWord w) : (decodeOutputs (recoverInput w)).outF64 = w := by
  obtain ⟨hpad, hlow, hhigh⟩ := h
  have hw := w.isLt
  have hpadNat := congrArg BitVec.toNat hpad
  apply BitVec.eq_of_toNat_eq
  have hout := outF64_encode (w.extractLsb' 63 1) ((w.extractLsb' 52 11 - 0x3DF#11).extractLsb' 0 6)
    (w.extractLsb' 35 17)
  refine (congrArg BitVec.toNat hout).trans ?_
  rw [packF64_toNat]
  simp only [BitVec.extractLsb'_toNat, BitVec.toNat_sub, BitVec.toNat_ofNat, Nat.shiftRight_eq_div_pow]
    at hpadNat hlow hhigh ⊢
  omega

theorem ncard_range_outF64 : (Set.range fun v : F24 => (decodeOutputs v).outF64).ncard = 2 ^ 24 := by
  rw [← Set.image_univ, Set.ncard_image_of_injective _ outF64_injective, Set.ncard_univ,
    Nat.card_congr BitVec.equivFin.toEquiv, Nat.card_fin]

/-! ### Values of words -/

theorem f24Value_ne_zero (v : F24) : f24Value v ≠ 0 := by
  obtain ⟨hrange, -, -⟩ := valueRange
  obtain ⟨-, -, hne, -, -⟩ := hrange v
  exact hne

/-- R54, of the value. -/
theorem f24Value_neg_iff_bit23 (v : F24) : f24Value v < 0 ↔ v.getLsbD 23 = true :=
  (f24Value_neg_iff v).trans (signBit_eq_one_iff v)

theorem real?_outF64 (v : F24) : (bin64 (decodeOutputs v).outF64).real? = some (f24Value v) := by
  rw [bin64_decodeOutputs]; rfl

/-- The value of a word from the instruction it decodes to. -/
theorem f24Value_of_decodeWord {v : F24} {s : SignBit} {e : ExpField} {m : MantField}
    (h : decodeWord v = .decode s e m) :
    f24Value v = signOf s * (2 : ℚ) ^ (e.toNat - 32 : ℤ) * (1 + m.toNat / 2 ^ 17) := by
  simp only [decodeWord, Instr.decode.injEq] at h
  obtain ⟨rfl, rfl, rfl⟩ := h
  rfl

/-- The value of a known output word, from the fields of the input word it is the output of. -/
theorem bin64_of_outF64 {v : F24} {w : B64} {s : SignBit} {e : ExpField} {m : MantField}
    (hout : (decodeOutputs v).outF64 = w) (hfields : decodeWord v = .decode s e m) :
    bin64 w = .normal (signOf s * (2 : ℚ) ^ (e.toNat - 32 : ℤ) * (1 + m.toNat / 2 ^ 17)) := by
  rw [← hout, bin64_decodeOutputs, f24Value_of_decodeWord hfields]

theorem bin64_0x3DF0000000000000 : bin64 0x3DF0000000000000#64 = .normal (1 / 2 ^ 32) := by
  rw [bin64_of_outF64 (v := 0x000000#24) (s := 0#1) (e := 0#6) (m := 0#17) (by decide) (by decide)]
  norm_num [signOf]

theorem bin64_0x3FEFFFE800000000 : bin64 0x3FEFFFE800000000#64 = .normal (262141 / 262144) := by
  rw [bin64_of_outF64 (v := 0x3FFFFD#24) (s := 0#1) (e := 31#6) (m := 0x1FFFD#17) (by decide) (by decide)]
  norm_num [signOf]

/-! ### One more in a field -/

/-- Where the mantissa is not full, adding 1 stays in it, and the value gains `2^e` units of 2^-49 (R57). -/
theorem valueUnits_add_one {v : F24} (h : (mantField v).toNat < 0x1FFFF) :
    valueUnits (v + 1#24) = valueUnits v + 2 ^ (expField v).toNat := by
  have hv := v.isLt
  rw [mantField_toNat] at h
  have hsum : (v + 1#24).toNat = v.toNat + 1 := by rw [BitVec.toNat_add, BitVec.toNat_ofNat]; omega
  have he : (expField (v + 1#24)).toNat = (expField v).toNat := by rw [expField_toNat, expField_toNat, hsum]; omega
  have hm : (mantField (v + 1#24)).toNat = (mantField v).toNat + 1 := by
    rw [mantField_toNat, mantField_toNat, hsum]; omega
  rw [valueUnits, valueUnits, he, hm]
  ring

theorem two_zpow_sub_49 (e : Nat) : (2 : ℚ) ^ ((e : ℤ) - 49) = 2 ^ e / 2 ^ 49 := by
  rw [zpow_sub₀ two_ne_zero, zpow_natCast, zpow_ofNat]

theorem abs_f24Value_add_one {v : F24} (h : (mantField v).toNat < 0x1FFFF) :
    |f24Value (v + 1#24)| - |f24Value v| = (2 : ℚ) ^ (((expField v).toNat : ℤ) - 49) := by
  rw [abs_f24Value, abs_f24Value, valueUnits_add_one h, two_zpow_sub_49]
  push_cast
  ring

/-- Adding 1 to a word whose `v[22:0]` is not full raises `v[22:0]` by 1. -/
theorem toNat_add_one_mod {v : F24} (he : (expField v).toNat < 63) :
    (v + 1#24).toNat % 2 ^ 23 = v.toNat % 2 ^ 23 + 1 := by
  have hv := v.isLt
  rw [expField_toNat] at he
  rw [BitVec.toNat_add, BitVec.toNat_ofNat]
  omega

theorem expField_add_one_of_full {v : F24} (hm : (mantField v).toNat = 0x1FFFF) (he : (expField v).toNat < 63) :
    (expField (v + 1#24)).toNat = (expField v).toNat + 1 := by
  have hsum := toNat_add_one_mod he
  rw [mantField_toNat] at hm
  rw [expField_toNat] at he ⊢
  rw [expField_toNat]
  omega

section ExponentStep
variable {v : F24} (he : (expField v).toNat < 63)
include he

theorem toNat_add_expUnit : (v + 0x020000#24).toNat = v.toNat + 2 ^ 17 := by
  have hv := v.isLt
  rw [expField_toNat] at he
  rw [BitVec.toNat_add, BitVec.toNat_ofNat]
  omega

theorem outF64_add_expUnit :
    (decodeOutputs (v + 0x020000#24)).outF64.toNat = (decodeOutputs v).outF64.toNat + 0x0010000000000000 := by
  have hsum := toNat_add_expUnit he
  rw [expField_toNat] at he
  rw [decodeOutputs_outF64_toNat, decodeOutputs_outF64_toNat, hsum]
  omega

/-- R58: the sign and the significand stay, and the power of two is the next one. -/
theorem f24Value_add_expUnit : f24Value (v + 0x020000#24) = 2 * f24Value v := by
  have hsum := toNat_add_expUnit he
  have hs : signBit (v + 0x020000#24) = signBit v := BitVec.eq_of_toNat_eq (by
    rw [expField_toNat] at he
    rw [signBit_toNat, signBit_toNat, hsum]; omega)
  have hm : (mantField (v + 0x020000#24)).toNat = (mantField v).toNat := by
    rw [mantField_toNat, mantField_toNat, hsum]; omega
  have hexp : (expField (v + 0x020000#24)).toNat = (expField v).toNat + 1 := by
    rw [expField_toNat] at he ⊢
    rw [expField_toNat, hsum]; omega
  rw [f24Value_eq_units, f24Value_eq_units, hs, valueUnits, valueUnits, hm, hexp]
  push_cast
  ring

end ExponentStep

/-! ### One word for one value -/

/-- The smallest subnormal (R41), of which every finite binary64 number is a multiple. -/
def b64Unit : ℚ := 2 ^ (-1074 : ℤ)

theorem b64Unit_pos : 0 < b64Unit := zpow_pos two_pos _

/-- The magnitude of a finite binary64 word with exponent field `E` and fraction field `F`, counted in `b64Unit`. -/
def b64Units (E F : Nat) : Nat := if E = 0 then F else (2 ^ 52 + F) * 2 ^ (E - 1)

theorem b64Units_lt (E : Nat) {F : Nat} (hF : F < 2 ^ 52) : b64Units E F < 2 ^ 52 * 2 ^ E := by
  cases E with
  | zero => simpa [b64Units] using hF
  | succ E =>
    calc b64Units (E + 1) F = (2 ^ 52 + F) * 2 ^ E := by simp [b64Units]
      _ < 2 ^ 53 * 2 ^ E := Nat.mul_lt_mul_of_pos_right (by omega) (Nat.two_pow_pos E)
      _ = 2 ^ 52 * 2 ^ (E + 1) := by ring

theorem le_b64Units_succ (E F : Nat) : 2 ^ 52 * 2 ^ E ≤ b64Units (E + 1) F := by
  simp [b64Units]

/-- The magnitudes of one exponent lie below those of the next. -/
theorem b64Units_lt_of_lt {E E' F F' : Nat} (hF : F < 2 ^ 52) (h : E < E') : b64Units E F < b64Units E' F' := by
  obtain ⟨k, rfl⟩ := Nat.exists_eq_add_of_lt h
  calc b64Units E F < 2 ^ 52 * 2 ^ E := b64Units_lt E hF
    _ ≤ 2 ^ 52 * 2 ^ (E + k) := Nat.mul_le_mul_left _ (Nat.pow_le_pow_right (by decide) (Nat.le_add_right E k))
    _ ≤ b64Units (E + k + 1) F' := le_b64Units_succ _ _

theorem b64Units_injective {E E' F F' : Nat} (hF : F < 2 ^ 52) (hF' : F' < 2 ^ 52)
    (h : b64Units E F = b64Units E' F') : E = E' ∧ F = F' := by
  have hE : E = E' := by
    rcases Nat.lt_trichotomy E E' with hlt | heq | hgt
    · exact absurd h (b64Units_lt_of_lt hF hlt).ne
    · exact heq
    · exact absurd h (b64Units_lt_of_lt hF' hgt).ne'
  subst hE
  refine ⟨rfl, ?_⟩
  rw [b64Units, b64Units] at h
  split at h
  · exact h
  · exact Nat.add_left_cancel (Nat.eq_of_mul_eq_mul_right (Nat.two_pow_pos _) h)

theorem two_zpow_sub_1022 (k : Nat) : (2 : ℚ) ^ ((k : ℤ) - 1022) = 2 ^ k * 2 ^ 52 * b64Unit := by
  rw [b64Unit, ← zpow_natCast, ← zpow_natCast, ← zpow_add₀ two_ne_zero, ← zpow_add₀ two_ne_zero]
  congr 1
  push_cast
  ring

/-- The value of every finite word, in these units, whatever its class. -/
theorem eq_units_of_real?_bin64 {w : B64} {q : ℚ} (h : (bin64 w).real? = some q) :
    q = signOf (b64Sign w) * (b64Units (b64Exp w).toNat (b64Frac w).toNat * b64Unit) := by
  rw [bin64] at h
  split_ifs at h with hexp hfrac hexp' hfrac'
  · obtain rfl : 0 = q := Option.some.inj h
    simp [hexp, hfrac, b64Units]
  · have hscale : (2 : ℚ) ^ (-1022 : ℤ) = 2 ^ 52 * b64Unit := by simpa using two_zpow_sub_1022 0
    rw [← Option.some.inj h, hscale, b64Units, if_pos (by rw [hexp, BitVec.toNat_ofNat])]
    ring
  · cases h
  · cases h
  · obtain ⟨k, hk⟩ : ∃ k, (b64Exp w).toNat = k + 1 := Nat.exists_eq_succ_of_ne_zero fun h0 =>
      hexp (BitVec.eq_of_toNat_eq h0)
    have hscale : ((k + 1 : Nat) : ℤ) - 1023 = k - 1022 := by push_cast; ring
    rw [← Option.some.inj h, hk, hscale, two_zpow_sub_1022, b64Units, if_neg k.succ_ne_zero, Nat.add_sub_cancel]
    push_cast
    ring

/-- A binary64 word is its fields at their places (R40). -/
theorem b64_ext {w w' : B64} (hs : b64Sign w = b64Sign w') (he : (b64Exp w).toNat = (b64Exp w').toNat)
    (hf : (b64Frac w).toNat = (b64Frac w').toNat) : w = w' := by
  have := w.isLt; have := w'.isLt
  have hsNat := congrArg BitVec.toNat hs
  simp only [b64Sign, b64Exp, b64Frac, BitVec.extractLsb'_toNat, Nat.shiftRight_eq_div_pow] at hsNat he hf
  exact BitVec.eq_of_toNat_eq (by omega)

theorem signOf_injective : Function.Injective signOf := by
  intro s s'
  revert s s'
  decide

/-- Only zero has two binary64 words (R41): the magnitude gives `E` and `F`, and then the sign gives `S`. -/
theorem eq_of_real?_bin64_eq {w w' : B64} {q : ℚ} (h : (bin64 w).real? = some q) (h' : (bin64 w').real? = some q)
    (hq : q ≠ 0) : w = w' := by
  have hw := eq_units_of_real?_bin64 h
  have hw' := eq_units_of_real?_bin64 h'
  have habs : b64Units (b64Exp w).toNat (b64Frac w).toNat = b64Units (b64Exp w').toNat (b64Frac w').toNat := by
    have heq := congrArg abs (hw.symm.trans hw')
    simp only [abs_mul, abs_signOf, one_mul, Nat.abs_cast] at heq
    exact_mod_cast mul_right_cancel₀ (abs_pos.mpr b64Unit_pos.ne').ne' heq
  obtain ⟨he, hf⟩ := b64Units_injective (b64Frac w).isLt (b64Frac w').isLt habs
  rw [← habs] at hw'
  have hsign : signOf (b64Sign w) = signOf (b64Sign w') :=
    mul_right_cancel₀ (right_ne_zero_of_mul (hw ▸ hq)) (hw.symm.trans hw')
  exact b64_ext (signOf_injective hsign) he hf

/-! ### Rounding -/

/-- A fraction `n / 2^17` above 0 and below 1 is an F24 number: with `k` the place of the highest 1 of `n`, the one of
unbiased exponent `k - 17` whose mantissa holds the bits of `n` below that 1, moved up to the top. -/
theorem exists_fields_of_fraction {n : Nat} (hpos : 0 < n) (hn : n < 2 ^ 17) :
    ∃ (e : ExpField) (m : MantField),
      (2 : ℚ) ^ (e.toNat - 32 : ℤ) * (1 + m.toNat / 2 ^ 17) = (n : ℚ) / 2 ^ 17 := by
  obtain ⟨k, hlow, hhigh⟩ : ∃ k, 2 ^ k ≤ n ∧ n < 2 ^ (k + 1) :=
    ⟨Nat.log 2 n, Nat.pow_log_le_self 2 hpos.ne', Nat.lt_pow_succ_log_self (by decide) n⟩
  have hk : k < 17 := (Nat.pow_lt_pow_iff_right (by decide)).mp (hlow.trans_lt hn)
  obtain ⟨d, hd⟩ : ∃ d, k + d = 17 := ⟨17 - k, by omega⟩
  obtain ⟨f, rfl⟩ := Nat.exists_eq_add_of_le hlow
  have hshift : f * 2 ^ d < 2 ^ 17 := by
    rw [← hd, pow_add]
    exact Nat.mul_lt_mul_of_pos_right (by rw [pow_succ] at hhigh; omega) (Nat.two_pow_pos d)
  refine ⟨BitVec.ofNat 6 (k + 15), BitVec.ofNat 17 (f * 2 ^ d), ?_⟩
  have hexp : ((k + 15 : Nat) - 32 : ℤ) = (k : ℤ) - 17 := by push_cast; ring
  have hsplit : (2 : ℚ) ^ 17 = 2 ^ k * 2 ^ d := by rw [← hd, pow_add]
  rw [BitVec.toNat_ofNat, BitVec.toNat_ofNat, Nat.mod_eq_of_lt (by omega), Nat.mod_eq_of_lt hshift, hexp,
    zpow_sub₀ two_ne_zero, zpow_natCast, zpow_ofNat, hsplit]
  push_cast
  field_simp

section Rounding
variable {rnd : ℚ → ℚ} (hrnd : ExactOnBinary64 rnd)
include hrnd

/-- No rounding moves the value of an F24 word, since `out_f64` has it. -/
theorem rnd_f24Value (v : F24) : rnd (f24Value v) = f24Value v := hrnd _ _ (real?_outF64 v)

theorem rnd_of_fields (s : SignBit) (e : ExpField) (m : MantField) {q : ℚ}
    (hq : signOf s * (2 : ℚ) ^ (e.toNat - 32 : ℤ) * (1 + m.toNat / 2 ^ 17) = q) : rnd q = q := by
  rw [← hq, ← f24Value_of_decodeWord (decodeWord_encode (.decode s e m))]
  exact rnd_f24Value hrnd _

theorem rnd_zero : rnd 0 = 0 := hrnd 0#64 0 rfl

/-- `2^(e - 32)` with a sign is the F24 number with mantissa 0. -/
theorem rnd_sign_mul_scale (s : SignBit) (e : ExpField) :
    rnd (signOf s * (2 : ℚ) ^ (e.toNat - 32 : ℤ)) = signOf s * (2 : ℚ) ^ (e.toNat - 32 : ℤ) :=
  rnd_of_fields hrnd s e 0#17 (by simp)

theorem rnd_scale (e : ExpField) : rnd ((2 : ℚ) ^ (e.toNat - 32 : ℤ)) = (2 : ℚ) ^ (e.toNat - 32 : ℤ) :=
  rnd_of_fields hrnd 0#1 e 0#17 (by simp [signOf])

/-- `1 + m / 2^17` is the F24 number with unbiased exponent 0. -/
theorem rnd_one_add_mant (m : MantField) : rnd (1 + m.toNat / 2 ^ 17) = 1 + m.toNat / 2 ^ 17 :=
  rnd_of_fields hrnd 0#1 32#6 m (by simp [signOf])

/-- `m / 2^17` is zero or an F24 number again. -/
theorem rnd_mant (m : MantField) : rnd (m.toNat / 2 ^ 17) = m.toNat / 2 ^ 17 := by
  rcases Nat.eq_zero_or_pos m.toNat with hzero | hpos
  · rw [hzero, Nat.cast_zero, zero_div, rnd_zero hrnd]
  · obtain ⟨e, f, hvalue⟩ := exists_fields_of_fraction hpos m.isLt
    exact rnd_of_fields hrnd 0#1 e f (by simpa [signOf] using hvalue)

/-- The formula evaluated step by step: each result is exact (R50). -/
theorem roundedValue_eq (v : F24) : roundedValue rnd v = f24Value v := by
  rw [roundedValue, rnd_scale hrnd, rnd_sign_mul_scale hrnd, rnd_mant hrnd, rnd_one_add_mant hrnd]
  exact rnd_f24Value hrnd v

end Rounding

/-! ### The statements -/

/-- Settles O27: the outputs are those of some word, and the equations hold between the ports of every word. -/
theorem portsAgree : Obligations.PortsAgree := by
  intro s t h hdef
  obtain ⟨v, hv⟩ := exists_outputs_eq_of_step h hdef
  rw [hv]
  exact ⟨b64Sign_packF64 _ _ _, b64Exp_outF64 v, (b64Exp_outF64 v).trans (rebiasExp_eq_unbias_add _),
    packF64_mant _ _ _, packF64_padding _ _ _, rfl, expUnbiasedO_toInt v⟩

/-- Settles O28: `recoverInput` undoes `DECODE`, and `DECODE` undoes it on the words with the two bounds. -/
theorem inputIsRecoverable : Obligations.InputIsRecoverable := by
  refine ⟨fun v => (recoverInput_outF64 v).symm, outF64_injective, fun w => ⟨?_, fun h => ?_⟩,
    ncard_range_outF64⟩
  · rintro ⟨v, rfl⟩
    exact isOutputWord_outF64 v
  · exact ⟨recoverInput w, outF64_recoverInput h⟩

/-- Settles O29: the place of each bit, and of each flipped bit. -/
theorem inputBitsLandAtOnePlace : Obligations.InputBitsLandAtOnePlace :=
  fun v => ⟨fun _ hi => ⟨outF64_getLsbD_mant v hi, outF64_xor_twoPow v hi⟩, outF64_getLsbD_sign v,
    outF64_xor_signMask v⟩

/-- Settles O30: the step ends with `DECODE` of `v`, a normal number of the value of `v`. -/
theorem outputHasExactValue : Obligations.OutputHasExactValue := by
  intro s v
  refine ⟨_, step_presenting s v, bin64_decodeOutputs v, ?_⟩
  rw [← signOf_signBit]
  rfl

/-- Settles O34: the sign bit is copied and the output is a normal number, never a zero. -/
theorem signIsCopied : Obligations.SignIsCopied := by
  intro v
  refine ⟨outF64_getLsbD_sign v, ⟨_, real?_outF64 v, f24Value_neg_iff_bit23 v⟩, ?_, outF64_xor_signMask v⟩
  rw [bin64_decodeOutputs]
  exact Bin64.noConfusion

/-- Settles O35: the step ends with a normal number. -/
theorem decodeIsTotalAndFinite : Obligations.DecodeIsTotalAndFinite := by
  intro s n _
  rw [State.presentingInteger_eq]
  refine ⟨_, _, step_presenting s _, real?_outF64 _, ?_, fun negative => ?_⟩ <;>
  · rw [bin64_decodeOutputs]
    exact Bin64.noConfusion

/-- Settles O36: bit 23 of the integer is bit 23 of the presented word. -/
theorem negativeIffBit23 : Obligations.NegativeIffBit23 := by
  intro s n _
  rw [State.presentingInteger_eq]
  refine ⟨_, _, step_presenting s _, real?_outF64 _, ?_⟩
  rw [f24Value_neg_iff_bit23, BitVec.getLsbD_ofNat, decide_eq_true (by decide), Bool.true_and]

/-- Settles O37: the word and its value evaluated, and no value is zero. -/
theorem zeroWordIsNotZero : Obligations.ZeroWordIsNotZero := by
  have hword : (decodeOutputs 0x000000#24).outF64 = 0x3DF0000000000000#64 := by decide
  refine ⟨hword, by rw [hword, bin64_0x3DF0000000000000], by norm_num [abs_lt], fun v q hq => ?_⟩
  rw [real?_outF64, Option.some.injEq] at hq
  exact hq ▸ f24Value_ne_zero v

/-- Settles O39: the step in units of 2^-49; with the carry, `v[22:0]` still grows. -/
theorem mantissaIsMonotone : Obligations.MantissaIsMonotone := by
  intro v
  refine ⟨_, _, real?_outF64 v, real?_outF64 _, fun hm => ?_, fun hm he => ?_⟩
  · have hstep := abs_f24Value_add_one hm
    exact ⟨sub_pos.mp (hstep ▸ zpow_pos two_pos _), hstep⟩
  · have hsum := toNat_add_one_mod he
    exact ⟨expField_add_one_of_full hm he, abs_f24Value_lt_of_lt (by omega)⟩

/-- Settles O40: the step in the bits and in the value. -/
theorem exponentDoublesValue : Obligations.ExponentDoublesValue :=
  fun v he => ⟨outF64_add_expUnit he, _, _, real?_outF64 v, real?_outF64 _, f24Value_add_expUnit he⟩

/-- Settles O41: every step is exact, and the exact value, which is not zero, has one word. -/
theorem roundedEvaluationGivesSameBits : Obligations.RoundedEvaluationGivesSameBits := by
  intro rnd v hrnd
  refine ⟨rnd_mant hrnd _, rnd_one_add_mant hrnd _, rnd_scale hrnd _, roundedValue_eq hrnd v, fun w => ?_⟩
  rw [roundedValue_eq hrnd]
  constructor
  · intro hw
    exact eq_of_real?_bin64_eq hw (real?_outF64 v) (f24Value_ne_zero v)
  · rintro rfl
    exact real?_outF64 v

/-- Settles O1: the ports are the fields of the word, with the unbiased exponent's bits taken from the word itself; the
corner cases are evaluated. -/
theorem decodeWritesSixPorts : Obligations.DecodeWritesSixPorts := by
  refine ⟨fun v s => ?_, ⟨by decide, bin64_0x3DF0000000000000⟩, ⟨by decide, ?_⟩, ⟨by decide, ?_⟩,
    by decide, bin64_0x3FEFFFE800000000, by decide, by decide⟩
  · rw [exec_decodeWord, ← unbias_expField]
    rfl
  · rw [bin64_of_outF64 (v := 0x800000#24) (s := 1#1) (e := 0#6) (m := 0#17) (by decide) (by decide)]
    norm_num [signOf]
  · rw [bin64_of_outF64 (v := 0x7FFFFF#24) (s := 0#1) (e := 63#6) (m := 0x1FFFF#17) (by decide) (by decide)]
    norm_num [signOf]

/-- Settles O2: `exec` writes the outputs of the fields and nothing else. -/
theorem everyInstructionCompletes : Obligations.EveryInstructionCompletes := by
  intro sgn e m s
  rw [← unbias_eq_sub, ← significand_eq_add]
  rfl

/-- Settles O5: the record is that of the instruction's fields. -/
theorem decodeIsPure : Obligations.DecodeIsPure :=
  fun ⟨sgn, e, m⟩ _ _ => ⟨portsOf sgn e m, rfl, rfl⟩

/-- Settles O38: the words and integers evaluated, the fractions compared. -/
theorem knownExample : Obligations.KnownExample := by
  have hword : (decodeOutputs 0x3FFFFD#24).outF64 = 0x3FEFFFE800000000#64 := by decide
  refine ⟨by decide, by decide, by decide, by norm_num, by decide, by decide, ?_, by norm_num, by norm_num [abs_lt],
    by norm_num [abs_lt], by norm_num [abs_lt], hword⟩
  rw [hword, bin64_0x3FEFFFE800000000]

end Sys2Proof.Machine
end

