-- ==== Sys2Proof/Proofs/Exceptions.lean ====
section
/-! PROOFS. The statement that the block raises no exception and enters no trap (60_exceptions.md R67, R69, R71): the
absence of a fault and of a refusal, which holds of every step, carried along a run. -/

namespace Sys2Proof.Machine

/-- A run of any length completes: each of its steps does, whatever state the one before leaves. -/
theorem exists_run_eq_next (n : Nat) (s : State) : ∃ t, Host.Core.run Sys2Proof.core n s = .next t := by
  induction n generalizing s with
  | zero => exact ⟨s, rfl⟩
  | succ n ih =>
    obtain ⟨u, hu⟩ := exists_step_eq_next s
    rw [core_run_succ hu]
    exact ih u

/-- Settles O12: a run of `n` steps completes from every state. -/
theorem machineNeverStops : Obligations.MachineNeverStops := fun s n => exists_run_eq_next n s

end Sys2Proof.Machine
end

