-- ==== Sys2Proof/Proofs/ResetAndHazards.lean ====
section
/-! PROOFS. The statements about power-up, undefined inputs and runs (70_reset_and_hazards.md R77, R78, R79, R84): an
undefined pin frees the outputs, the run invariant holds at power-up and along every step, and a run of words is
observed as their output records. -/

namespace Sys2Proof.Machine

/-! ### Undefined inputs -/

/-- One undefined pin leaves no word on the port. -/
theorem InPort.word?_eq_none_of_undefined {p : InPort} {i : Fin 24} (h : p.pins[i] = .undefined) :
    p.word? = none := by
  rw [InPort.word?_eq_none_iff, ← Bool.not_eq_true]
  intro hdef
  have hbit : (p.pins[i]).bit?.isSome = true := InPort.isDefined_iff.mp hdef i i.isLt
  rw [h] at hbit
  exact Bool.noConfusion hbit

theorem InPort.getElem_undriven (i : Fin 24) : InPort.undriven.pins[i] = .undefined :=
  Vector.getElem_replicate i.isLt

/-- Outputs have settled wherever the port holds no word: R77 asks nothing of them. -/
theorem settled_of_word?_eq_none {s : State} (h : s.inValue.word? = none) : Settled s := by
  intro v hv
  rw [h] at hv
  cases hv

/-! ### The run invariant -/

/-- A step leaves only presentations that were there before. -/
theorem definedRun_of_step {s t : State} (hrun : DefinedRun s) (h : step s = .next t) : DefinedRun t := by
  obtain ⟨hpending, -, -⟩ := step_driver h
  intro p hp
  rw [hpending, State.advance_pending] at hp
  exact hrun p (List.mem_of_mem_tail hp)

/-- A step that had a presentation left to make ends with that one on the port, which is defined. -/
theorem isDefined_inValue_of_step {s t : State} (hrun : DefinedRun s) (h : step s = .next t)
    (hleft : s.pending ≠ []) : t.inValue.isDefined = true := by
  obtain ⟨p, ps, hpending⟩ := List.exists_cons_of_ne_nil hleft
  obtain ⟨-, hport, -⟩ := step_driver h
  rw [hport, State.advance_inValue, hpending]
  exact hrun p (hpending ▸ List.mem_cons_self)

/-! ### Runs of words -/

/-- The first step of a run of words presents the first of them and leaves the run of the others. -/
theorem step_withRun_cons (s : State) (v : F24) (vs : List F24) :
    step (s.withRun (v :: vs)) =
      .next (State.withRun { s with inValue := InPort.ofWord v, outputs := decodeOutputs v } vs) := by
  rw [State.withRun_cons, step_presenting]
  rfl

theorem observation_withRun (s : State) (vs : List F24) :
    observation vs.length (s.withRun vs) = vs.map decodeOutputs := by
  induction vs generalizing s with
  | nil => rfl
  | cons v vs ih =>
    rw [List.length_cons, observation_succ (step_withRun_cons s v vs), ih, List.map_cons]
    rfl

/-- Where a run of at least one word ends: with the last word on the port and its record on the outputs, whatever words
came before it. -/
theorem run_withRun_concat (s : State) (vs : List F24) (v : F24) :
    Host.Core.run Sys2Proof.core (vs ++ [v]).length (s.withRun (vs ++ [v])) =
      .next { s with inValue := InPort.ofWord v, outputs := decodeOutputs v, pending := [] } := by
  induction vs generalizing s with
  | nil => exact core_run_succ (step_withRun_cons s v []) 0
  | cons u us ih =>
    rw [List.cons_append, List.length_cons, core_run_succ (step_withRun_cons s u (us ++ [v]))]
    exact ih _

/-! ### The statements -/

/-- Settles O14: every step settles the outputs, and what it presents was one of the defined words left. -/
theorem stepKeepsRunInvariant : Obligations.StepKeepsRunInvariant := by
  intro s t ⟨_, hrun⟩ h
  have hsettled := settled_of_step h
  refine ⟨⟨hsettled, definedRun_of_step hrun h⟩, fun hleft => ?_⟩
  obtain ⟨v, hv⟩ := InPort.exists_word?_iff.mpr (isDefined_inValue_of_step hrun h hleft)
  exact ⟨v, hv, hsettled v hv⟩

/-- Settles O4: the step of a presentation, whose word is the one read back from the port. -/
theorem presentedWordIsDecoded : Obligations.PresentedWordIsDecoded :=
  fun s v => ⟨step_presenting s v, InPort.word?_ofWord v⟩

/-- Settles O9: the undefined pin leaves no word on the port, and such a step draws all six outputs. -/
theorem undefinedInputLeavesOutputsFree : Obligations.UndefinedInputLeavesOutputsFree := by
  rintro s ⟨i, hi⟩
  have hword : s.advance.inValue.word? = none := by
    rw [State.advance_inValue]
    exact InPort.word?_eq_none_of_undefined hi
  rw [step_of_undefined hword, State.advance_eq]
  rfl

/-- Settles O15: the empty run ends where it starts, and any other ends after its last word. -/
theorem runObservesDecodeOfEachWord : Obligations.RunObservesDecodeOfEachWord := by
  intro s vs
  refine ⟨observation_withRun s vs, ?_⟩
  rcases List.eq_nil_or_concat' vs with rfl | ⟨us, u, rfl⟩
  · exact ⟨s.withRun [], rfl, rfl, fun _ hv => nomatch hv⟩
  · refine ⟨_, run_withRun_concat s us u, rfl, fun v hv => ?_⟩
    rw [List.getLast?_concat, Option.some.injEq] at hv
    exact congrArg decodeOutputs hv

/-- Settles O11: no pin is driven, nothing is pending, and draw 0 is on the outputs. -/
theorem resetHasNoDefinedInput : Obligations.ResetHasNoDefinedInput :=
  ⟨InPort.getElem_undriven, State.reset_pending, State.reset_outputs⟩

/-- Settles O13: the port holds no word and nothing is pending. -/
theorem runInvariantAtReset : Obligations.RunInvariantAtReset :=
  ⟨settled_of_word?_eq_none InPort.word?_undriven, fun _ hp => absurd hp List.not_mem_nil⟩

end Sys2Proof.Machine
end
